-- ==== Sys2Proof/Word.lean ====
section
/-! DEFINITION. The value types of 00_scope.md R6 and R7: bytes, 32-bit two's-complement integers and
64-bit patterns read as IEEE 754 binary64. -/

namespace Sys2Proof

/-- A byte, 0 to 255 (00_scope.md R7). -/
abbrev Byte := BitVec 8

/-- `I32`: a 32-bit two's-complement integer; its `Int` value `sext` is `BitVec.toInt` (00_scope.md R7). -/
abbrev I32 := BitVec 32

/-- `F64`: a 64-bit pattern, bit 63 the sign, bits 62:52 the biased exponent, bits 51:0 the fraction
(00_scope.md R7). -/
abbrev F64 := BitVec 64

end Sys2Proof
end

