-- ==== Sys2Proof/Config.lean ====
section
/-! DEFINITION. The configuration record of 00_scope.md R5 (capacities and the opcode map with their
defaults), the fixed constant `EPS`, and the free values: opaque constants without a body, so that no
proof can know what the host or the arithmetic unit answers. -/

namespace Sys2Proof

/-- The 21 mnemonics, in the order of the opcode map of 30_encoding.md R106. -/
inductive Mnemonic where
  | halt | push | add | sub | mul | div | print | gstore | gload | mkvec | dot
  | relu | gt | lt | eq | jmpf | jmp | rand | input | hsave | hload
  deriving DecidableEq, Repr

/-- Every mnemonic once. -/
def Mnemonic.all : List Mnemonic :=
  [.halt, .push, .add, .sub, .mul, .div, .print, .gstore, .gload, .mkvec, .dot,
   .relu, .gt, .lt, .eq, .jmpf, .jmp, .rand, .input, .hsave, .hload]

/-- `OPMAP`: the opcode byte of each mnemonic. The defaults are the table of 30_encoding.md R106
(the spec's own choice D1; log 2). -/
structure OpMap where
  halt   : Byte := 0x00
  push   : Byte := 0x01
  add    : Byte := 0x02
  sub    : Byte := 0x03
  mul    : Byte := 0x04
  div    : Byte := 0x05
  print  : Byte := 0x06
  gstore : Byte := 0x07
  gload  : Byte := 0x08
  mkvec  : Byte := 0x09
  dot    : Byte := 0x0A
  relu   : Byte := 0x0B
  gt     : Byte := 0x0C
  lt     : Byte := 0x0D
  eq     : Byte := 0x0E
  jmpf   : Byte := 0x0F
  jmp    : Byte := 0x10
  rand   : Byte := 0x11
  input  : Byte := 0x12
  hsave  : Byte := 0x13
  hload  : Byte := 0x14
  deriving DecidableEq, Repr

/-- The default opcode map (30_encoding.md R106). -/
def OpMap.default : OpMap := {}

/-- The configuration record (00_scope.md R5) with its default capacities. `ENDIAN` is fixed
little-endian and `EPS` is `Config.eps`; `FMT`, `PROMPT`, `PARSE` and `RNG` are the host's. -/
structure Config where
  progCap   : Nat := 4096
  stackCap  : Nat := 256
  globalCap : Nat := 256
  heapCap   : Nat := 1024
  vecCap    : Nat := 64
  opmap     : OpMap := {}
  deriving DecidableEq, Repr

/-- The default configuration (00_scope.md R5). -/
def Config.default : Config := {}

/-- `EPS`, the binary64 value nearest to 1e-9 (00_scope.md R5, 40_arith.md R143). -/
def Config.eps : F64 := 0x3E112E0BE826D695

/-- The host's answer to `InputReq` (20_memory.md R85): a parsed value, or a parse failure. -/
inductive InputAnswer where
  | value (v : F64)
  | parseFail
  deriving DecidableEq, Repr, Inhabited

/-- The host's answer to `SlotWrite` (20_memory.md R87): `ok`, or `fail` together with whatever the
slot holds afterwards (absent, the old content, a partial image, anything). -/
inductive WriteAnswer where
  | ok
  | fail (slotAfter : Option (List Byte))
  deriving DecidableEq, Repr, Inhabited

/-- The host's answer to `SlotRead` (20_memory.md R87): deliver the slot's bytes, or report a failure. -/
inductive ReadAnswer where
  | deliver
  | fail
  deriving DecidableEq, Repr, Inhabited

/-- FREE VALUE (log 5): the sign (bit 51) and the payload (bits 50:0) of the NaN an invalid operation
returns (40_arith.md R134). Applied to the draw counter. -/
opaque Config.nanBits : Nat → BitVec 52

/-- FREE VALUE (log 22): the sign (bit 51) and the payload (bits 50:0) of the quiet NaN that the assembly
literal `nan` denotes (30_encoding.md R112). Its own constant, so that it is tied to no computed NaN. -/
opaque Config.asmNanBits : BitVec 52

/-- FREE VALUE (log 6): the 64 bits from which the host's answer to `RandReq` is made (20_memory.md R86). -/
opaque Config.randomWord : Nat → BitVec 64

/-- FREE VALUE (log 8): the host's answer to `InputReq` (20_memory.md R85). -/
opaque Config.lineAnswer : Nat → InputAnswer

/-- FREE VALUE (log 9): the host's answer to `SlotWrite` (20_memory.md R87). -/
opaque Config.writeAnswer : Nat → WriteAnswer

/-- FREE VALUE (log 10): the host's answer to `SlotRead` (20_memory.md R87). -/
opaque Config.readAnswer : Nat → ReadAnswer

end Sys2Proof
end

