-- ==== Sys2Proof/Machine/Float.lean ====
section
/-! DEFINITION. IEEE 754 binary64 as the spec uses it (40_arith.md R131, R134; 00_scope.md R7): fields,
exact values, one rounding function, and the four arithmetic operations over it.

Every finite value is an integer multiple of 2^-1074, so the exact result of an operation is a fraction of
natural numbers in that unit; `roundPack` narrows it once, to nearest with ties to even. -/

namespace Sys2Proof.Machine

/-- `2 ^ k`, with every exponent small enough for Lean's evaluators. -/
def pow2 (k : Nat) : Nat := 2 ^ (k % 64) * 18446744073709551616 ^ (k / 64)

/-- Number of binary digits of `n` less one, by halving the search `f` times; see `ilog2`. -/
def ilog2From : Nat → Nat → Nat → Nat
  | 0, _, acc => acc
  | f + 1, n, acc =>
    if n < pow2 (2 ^ f) then ilog2From f n acc else ilog2From f (n / pow2 (2 ^ f)) (acc + 2 ^ f)

/-- The base-2 logarithm, rounded down, of any `n` below `2 ^ 4096`; 0 for 0. -/
def ilog2 (n : Nat) : Nat := ilog2From 12 n 0

/-- The biased exponent, bits 62:52 (00_scope.md R7). -/
def expField (a : F64) : Nat := a.toNat / 0x10000000000000 % 0x800

/-- The fraction, bits 51:0 (00_scope.md R7). -/
def fracField (a : F64) : Nat := a.toNat % 0x10000000000000

/-- A NaN (40_arith.md R134). -/
def isNaN (a : F64) : Bool := decide (expField a = 0x7FF ∧ fracField a ≠ 0)

/-- A quiet NaN: bit 51 is set (40_arith.md R134). -/
def isQuietNaN (a : F64) : Bool := isNaN a && a.getLsbD 51

/-- An infinity. -/
def isInf (a : F64) : Bool := decide (expField a = 0x7FF ∧ fracField a = 0)

/-- Neither a NaN nor an infinity. -/
def isFinite (a : F64) : Bool := decide (expField a ≠ 0x7FF)

/-- The number of units of 2^-1074 in 1. -/
def unit : Nat := pow2 1074

/-- The absolute value of a finite `a`, in units of 2^-1074. -/
def magnitude (a : F64) : Nat :=
  if expField a = 0 then fracField a
  else (0x10000000000000 + fracField a) * pow2 (expField a - 1)

/-- The value of a finite `a`, in units of 2^-1074. -/
def scaled (a : F64) : Int := if a.msb then -(magnitude a : Int) else magnitude a

/-- `+0.0`, `-0.0`, `1.0` (00_scope.md R7). -/
def posZero : F64 := 0x0000000000000000
def negZero : F64 := 0x8000000000000000
def one : F64 := 0x3FF0000000000000

/-- The infinity of a sign. -/
def infOf (neg : Bool) : F64 := if neg then 0xFFF0000000000000 else 0x7FF0000000000000

/-- The zero of a sign. -/
def zeroOf (neg : Bool) : F64 := if neg then negZero else posZero

/-- The quiet NaN with the sign and payload of `d` (40_arith.md R134). -/
def quietNaN (d : BitVec 52) : F64 := d.extractLsb' 51 1 ++ 0xFFF#12 ++ d.extractLsb' 0 51

/-- `p / q` to the nearest natural number, ties to even. -/
def divNearestEven (p q : Nat) : Nat :=
  if q < 2 * (p % q) ∨ (2 * (p % q) = q ∧ p / q % 2 = 1) then p / q + 1 else p / q

/-- The binary64 value nearest to `p / q` units of 2^-1074, ties to even, negated if `neg`; an infinity
on overflow, a subnormal on underflow (40_arith.md R131). The significand is kept to 53 bits by dropping
`k` low bits; exponent and fraction fields then hold `k * 2^52 +` the rounded significand, which also
carries a rounding overflow into the exponent. -/
def roundPack (neg : Bool) (p q : Nat) : F64 :=
  let k := ilog2 (p / q) - 52
  let bits := k * 0x10000000000000 + divNearestEven p (q * pow2 k)
  BitVec.ofNat 64 ((if neg then 0x8000000000000000 else 0) + min bits 0x7FF0000000000000)

/-- `-a`: the sign bit flipped. -/
def fneg (a : F64) : F64 := a ^^^ 0x8000000000000000

/-- `fadd` (40_arith.md R131); `nan` is the NaN it returns for an invalid operation (R134). -/
def fadd (nan a b : F64) : F64 :=
  if isNaN a || isNaN b then nan
  else if isInf a then if isInf b && (a.msb != b.msb) then nan else a
  else if isInf b then b
  else if scaled a + scaled b = 0 then zeroOf (a.msb && b.msb)
  else roundPack (decide (scaled a + scaled b < 0)) (scaled a + scaled b).natAbs 1

/-- `fsub` (40_arith.md R131). -/
def fsub (nan a b : F64) : F64 := fadd nan a (fneg b)

/-- `fmul` (40_arith.md R131). -/
def fmul (nan a b : F64) : F64 :=
  let neg := a.msb != b.msb
  if isNaN a || isNaN b then nan
  else if isInf a || isInf b then
    if (isFinite a && decide (magnitude a = 0)) || (isFinite b && decide (magnitude b = 0)) then nan
    else infOf neg
  else roundPack neg (magnitude a * magnitude b) unit

/-- `fdiv` (40_arith.md R131). DIV never divides by a zero (R139); the operation itself is total, with
IEEE 754's results there. -/
def fdiv (nan a b : F64) : F64 :=
  let neg := a.msb != b.msb
  if isNaN a || isNaN b then nan
  else if isInf a then if isInf b then nan else infOf neg
  else if isInf b then zeroOf neg
  else if magnitude b = 0 then if magnitude a = 0 then nan else infOf neg
  else roundPack neg (magnitude a * unit) (magnitude b)

/-- `fabs`: bit 63 cleared, also of a NaN (40_arith.md R133). -/
def fabs (a : F64) : F64 := a &&& 0x7FFFFFFFFFFFFFFF

/-- `f64_of_int` of a natural number, exact below 2^53 (42_vector.md R161). -/
def f64OfNat (n : Nat) : F64 := roundPack false (n * unit) 1

end Sys2Proof.Machine
end

