-- ==== Sys2Proof/Machine/Flags.lean ====
section
/-! DEFINITION. There are no status flags (10_state.md R37): comparisons deliver `1.0` or `+0.0` on the
stack and the conditional jump tests a popped value. This file holds those predicates and that value
(40_arith.md R132, R133, R141). -/

namespace Sys2Proof.Machine

/-- The position of a number on the line of binary64 values: both zeros at 0, larger values later,
infinities at the ends. -/
def orderKey (a : F64) : Int :=
  if a.msb then -((a.toNat % 0x8000000000000000 : Nat) : Int)
  else ((a.toNat % 0x8000000000000000 : Nat) : Int)

/-- `flt`: quiet ordered "less" (40_arith.md R132). -/
def flt (a b : F64) : Bool := !isNaN a && !isNaN b && decide (orderKey a < orderKey b)

/-- `fgt`: quiet ordered "greater" (40_arith.md R132). -/
def fgt (a b : F64) : Bool := flt b a

/-- `fis_zero`: `a[62:0] = 0` (40_arith.md R133). -/
def fisZero (a : F64) : Bool := decide (a.toNat % 0x8000000000000000 = 0)

/-- The result of a comparison: `1.0` or `+0.0` (40_arith.md R141). -/
def truth (p : Bool) : F64 := if p then one else posZero

/-- The test of EQ: `|a - b| < EPS` with the rounded difference (40_arith.md R143). The NaN of an invalid
difference is never seen, since every NaN compares false. -/
def nearlyEqual (nan a b : F64) : Bool := flt (fabs (fsub nan a b)) Config.eps

end Sys2Proof.Machine
end

