-- ==== Sys2Proof/Syntax.lean ====
section
/-! DEFINITION. The instruction type: one constructor per row of the opcode table (30_encoding.md R106). -/

namespace Sys2Proof

/-- The 21 instructions, in the order of the opcode table, with their operands (30_encoding.md R100, R109):
a 64-bit literal for PUSH, a signed 32-bit immediate for the five format-I instructions. -/
inductive Instr where
  | halt
  | push (lit : F64)
  | add
  | sub
  | mul
  | div
  | print
  | gstore (imm : I32)
  | gload (imm : I32)
  | mkvec (imm : I32)
  | dot
  | relu
  | gt
  | lt
  | eq
  | jmpf (imm : I32)
  | jmp (imm : I32)
  | rand
  | input
  | hsave
  | hload
  deriving DecidableEq, Repr

/-- The mnemonic of an instruction. -/
def Instr.mnemonic : Instr → Mnemonic
  | .halt => .halt
  | .push _ => .push
  | .add => .add
  | .sub => .sub
  | .mul => .mul
  | .div => .div
  | .print => .print
  | .gstore _ => .gstore
  | .gload _ => .gload
  | .mkvec _ => .mkvec
  | .dot => .dot
  | .relu => .relu
  | .gt => .gt
  | .lt => .lt
  | .eq => .eq
  | .jmpf _ => .jmpf
  | .jmp _ => .jmp
  | .rand => .rand
  | .input => .input
  | .hsave => .hsave
  | .hload => .hload

end Sys2Proof
end

