-- ==== Sys2Proof/WellFormed.lean ====
section
/-! DEFINITION. What can be ill-formed before a program runs: the opcode map and the configuration
record (00_scope.md R5). No instruction can: "Within an assigned opcode every operand bit pattern
decodes" (30_encoding.md R107), so `Instr.WellFormed` accepts every term. -/

namespace Sys2Proof

/-- The opcode byte the map gives a mnemonic. -/
def OpMap.byteOf (o : OpMap) : Mnemonic → Byte
  | .halt => o.halt
  | .push => o.push
  | .add => o.add
  | .sub => o.sub
  | .mul => o.mul
  | .div => o.div
  | .print => o.print
  | .gstore => o.gstore
  | .gload => o.gload
  | .mkvec => o.mkvec
  | .dot => o.dot
  | .relu => o.relu
  | .gt => o.gt
  | .lt => o.lt
  | .eq => o.eq
  | .jmpf => o.jmpf
  | .jmp => o.jmp
  | .rand => o.rand
  | .input => o.input
  | .hsave => o.hsave
  | .hload => o.hload

/-- `OPMAP` is injective (00_scope.md R5): no two mnemonics share an opcode byte. -/
def OpMap.WellFormed (o : OpMap) : Bool := decide (Mnemonic.all.map o.byteOf).Nodup

/-- A capacity other than `PROG_CAP` is 1 to 2^31 - 1 (00_scope.md R5). -/
def capacityOk (n : Nat) : Bool := decide (1 ≤ n ∧ n ≤ 2147483647)

/-- The constraints of the configuration record (00_scope.md R5). -/
def Config.WellFormed (c : Config) : Bool :=
  decide (c.progCap ≤ 2147483642) && capacityOk c.stackCap && capacityOk c.globalCap &&
    capacityOk c.heapCap && capacityOk c.vecCap && c.opmap.WellFormed

/-- Every instruction term is well-formed (30_encoding.md R107, R109): operands are bit vectors of the
encoding's own width, and values out of range are rejected when the instruction executes. -/
def Instr.WellFormed : Instr → Bool
  | .halt | .push _ | .add | .sub | .mul | .div | .print | .gstore _ | .gload _ | .mkvec _ | .dot
  | .relu | .gt | .lt | .eq | .jmpf _ | .jmp _ | .rand | .input | .hsave | .hload => true

end Sys2Proof
end

