-- ==== Sys2Proof/Decode.lean ====
section
/-! DEFINITION. The decoder (30_encoding.md R100 to R110), total on any bytes, and the encoder, both over
an arbitrary opcode map; the little-endian codecs they share with the image (20_memory.md R67). -/

namespace Sys2Proof

/-- The `n` low bytes of `x`, least significant first (20_memory.md R67). -/
def leBytes : Nat → Nat → List Byte
  | 0, _ => []
  | n + 1, x => BitVec.ofNat 8 x :: leBytes n (x / 256)

/-- The number whose little-endian bytes these are. -/
def leNat : List Byte → Nat
  | [] => 0
  | b :: rest => b.toNat + 256 * leNat rest

/-- `le_i32` (00_scope.md R8). -/
def leI32 (b : List Byte) : I32 := BitVec.ofNat 32 (leNat b)

/-- `le_f64` (00_scope.md R8). -/
def leF64 (b : List Byte) : F64 := BitVec.ofNat 64 (leNat b)

/-- `i32_le` (00_scope.md R8). -/
def i32Le (v : I32) : List Byte := leBytes 4 v.toNat

/-- `f64_le` (00_scope.md R8). -/
def f64Le (v : F64) : List Byte := leBytes 8 v.toNat

/-- The number of operand bytes after the opcode byte: formats N, I and F (30_encoding.md R100, R106). -/
def Mnemonic.operandLength : Mnemonic → Nat
  | .push => 8
  | .gstore | .gload | .mkvec | .jmpf | .jmp => 4
  | .halt | .add | .sub | .mul | .div | .print | .dot | .relu | .gt | .lt | .eq
  | .rand | .input | .hsave | .hload => 0

/-- The length in bytes of an instruction: 1, 5 or 9 (30_encoding.md R105). -/
def Mnemonic.length (m : Mnemonic) : Nat := 1 + m.operandLength

/-- The length in bytes of an instruction. -/
def Instr.length (i : Instr) : Nat := i.mnemonic.length

/-- The mnemonic a byte is assigned to, if any (30_encoding.md R106, R107). -/
def OpMap.lookup (o : OpMap) (b : Byte) : Option Mnemonic :=
  Mnemonic.all.find? fun m => decide (o.byteOf m = b)

/-- The four outcomes of decoding (30_encoding.md R110). -/
inductive Decoded where
  | endOfProgram
  | unknown (opcode : Byte)
  | truncated (m : Mnemonic)
  | insn (i : Instr) (length : Nat)
  deriving DecidableEq, Repr

/-- The instruction with this mnemonic and these operand bytes (30_encoding.md R103, R104, R109). -/
def instrOf (m : Mnemonic) (operand : List Byte) : Instr :=
  match m with
  | .halt => .halt
  | .push => .push (leF64 operand)
  | .add => .add
  | .sub => .sub
  | .mul => .mul
  | .div => .div
  | .print => .print
  | .gstore => .gstore (leI32 operand)
  | .gload => .gload (leI32 operand)
  | .mkvec => .mkvec (leI32 operand)
  | .dot => .dot
  | .relu => .relu
  | .gt => .gt
  | .lt => .lt
  | .eq => .eq
  | .jmpf => .jmpf (leI32 operand)
  | .jmp => .jmp (leI32 operand)
  | .rand => .rand
  | .input => .input
  | .hsave => .hsave
  | .hload => .hload

/-- `Decode` on the bytes from the instruction pointer to the end of the program (30_encoding.md R110):
the opcode is examined before the operand is read. -/
def decode (o : OpMap) (bytes : List Byte) : Decoded :=
  match bytes with
  | [] => .endOfProgram
  | b :: rest =>
    match o.lookup b with
    | none => .unknown b
    | some m =>
      if rest.length < m.operandLength then .truncated m
      else .insn (instrOf m (rest.take m.operandLength)) m.length

/-- The operand bytes of an instruction (30_encoding.md R100). -/
def Instr.operandBytes : Instr → List Byte
  | .push lit => f64Le lit
  | .gstore imm | .gload imm | .mkvec imm | .jmpf imm | .jmp imm => i32Le imm
  | .halt | .add | .sub | .mul | .div | .print | .dot | .relu | .gt | .lt | .eq
  | .rand | .input | .hsave | .hload => []

/-- The bytes of an instruction, opcode byte first (30_encoding.md R100, R106). -/
def encode (o : OpMap) (i : Instr) : List Byte := o.byteOf i.mnemonic :: i.operandBytes

/-- The instruction bytes of a table word: bit 0 is the least significant bit of the first byte, bits
above `nbits` are 0, up to the longest instruction's nine bytes (00_scope.md R6). -/
def tableBytes (nbits w : Nat) : List Byte := leBytes 9 (w % 2 ^ nbits)

/-- What the decoder reads from a table word under the default opcode map. -/
def decodeTableWord (nbits w : Nat) : Option Instr :=
  match decode OpMap.default (tableBytes nbits w) with
  | .insn i _ => some i
  | .endOfProgram | .unknown _ | .truncated _ => none

end Sys2Proof
end

