-- ==== Sys2Proof/Machine/State.lean ====
section
/-! DEFINITION. The state of the machine as plain data (10_state.md R20), the halt causes and warnings
(60_exceptions.md R221, R222), the events of the output history (20_memory.md R80), the ways a step can
stop, and the state after reset (10_state.md R40). -/

namespace Sys2Proof.Machine

/-- `STATE` (10_state.md R21). -/
inductive Engine where
  | running
  | halted
  deriving DecidableEq, Repr

/-- `CAUSE`, in the order of the codes 0 to 15 (60_exceptions.md R221). -/
inductive Cause where
  | none
  | haltInsn
  | endOfProgram
  | decodePastEnd
  | unknownOpcode
  | divisionByZero
  | invalidGlobalIndex
  | invalidVectorHandle
  | vectorSizeMismatch
  | outOfMemory
  | tooManyVectors
  | insufficientOperands
  | stackOverflow
  | stackUnderflow
  | invalidVectorSize
  | invalidJumpTarget
  deriving DecidableEq, Repr

/-- The non-fatal diagnostics, in the order of the codes 16 to 19 (60_exceptions.md R222). -/
inductive Warning where
  | malformedInput
  | persistWriteFailure
  | persistReadFailure
  | persistMalformed
  deriving DecidableEq, Repr

/-- An event of the output history (20_memory.md R80). -/
inductive Event where
  | print (v : F64)
  | prompt
  | diag (code : Nat) (ip : Nat)
  | slotWrite (image : List Byte)
  | slotRead
  | inputReq
  | randReq
  deriving DecidableEq, Repr

/-- An entry of the descriptor table (10_state.md R33). -/
structure Descriptor where
  size : I32
  base : I32
  deriving DecidableEq, Repr

/-- The vector heap's full state, which is what the persistence codec covers (45_persist.md R200):
the bump pointer, the descriptor count, `H` and `VD` (10_state.md R32, R33). The arrays hold every
cell and entry, free and dead ones included, so their lengths are `HEAP_CAP` and `VEC_CAP` (log 1). -/
structure VectorHeap where
  hp    : Nat
  vc    : Nat
  cells : List F64
  table : List Descriptor
  deriving DecidableEq, Repr

/-- The answers the host has ready on each port, oldest first (the model's own field, log 11). Where a
list is empty the answer is a free value of `Config`; but a `silent` host never answers an `InputReq`
beyond those in `lines`, as 44_io.md R195 and 70_reset_and_hazards.md R270 (b) let it (log 8). -/
structure HostAnswers where
  lines   : List InputAnswer := []
  silent  : Bool := false
  randoms : List (BitVec 64) := []
  writes  : List WriteAnswer := []
  reads   : List ReadAnswer := []
  deriving DecidableEq, Repr

/-- The program store as a list of address and byte, addresses strictly rising, no byte 0 listed: an
unlisted address reads as 0 (log 4). -/
abbrev Memory := List Host.Cell

/-- The whole machine. -/
structure State where
  /-- `STATE` (10_state.md R21) -/
  engine   : Engine
  /-- `CAUSE` (10_state.md R22) -/
  cause    : Cause
  /-- `IP` (10_state.md R23) -/
  ip       : Nat
  /-- `PLEN` (10_state.md R24) -/
  plen     : Nat
  /-- `P` (10_state.md R24) -/
  prog     : Memory
  /-- `S[0..sp]`, top first; `SP` is its length less one (10_state.md R25, log 3) -/
  stack    : List F64
  /-- `G`; its length is `GLOBAL_CAP` (10_state.md R30, log 1) -/
  globals  : List F64
  /-- `HP`, `VC`, `H`, `VD` (10_state.md R32, R33) -/
  vh       : VectorHeap
  /-- the output history (20_memory.md R80, log 18) -/
  events   : List Event
  /-- `SLOT`, the host's persistence slot (20_memory.md R87) -/
  slot     : Option (List Byte)
  /-- the engine is inside an INPUT that waits, its `Prompt` already in the history; false between steps
  (10_state.md R38, 44_io.md R195, log 7) -/
  prompted : Bool
  /-- the host's ready answers (the model's own, log 11) -/
  host     : HostAnswers
  /-- how many free values have been drawn (the model's own, log 12) -/
  draws    : Nat
  /-- `PROG_CAP`, constant (00_scope.md R5, log 1) -/
  progCap  : Nat
  /-- `STACK_CAP`, constant (00_scope.md R5, log 1) -/
  stackCap : Nat
  /-- `OPMAP`, constant (00_scope.md R5, log 2) -/
  opmap    : OpMap
  deriving DecidableEq, Repr

/-- Why a step stops without a next state. -/
inductive Fault where
  /-- Raised by `step` alone, in every state whose `STATE` is Halted: "While `STATE = Halted` there is no
  step" (43_control.md R188, 60_exceptions.md R230). Safe (log 14). -/
  | halted
  /-- Raised by INPUT alone, when the host never answers: INPUT "has no successor state until the host
  answers" (00_scope.md R9, 44_io.md R195, 93 V5). A hang and no halt: no cause is recorded. Safe (log 7). -/
  | inputWait
  /-- Raised by DOT alone, when a live descriptor lies outside the table or its range outside the heap,
  cells the spec says do not exist (20_memory.md R60, R79). The invariant of 10_state.md R34 excludes it
  in every reachable state. Safe (log 16). -/
  | noSuchCell
  deriving DecidableEq, Repr

/-- Why an instruction has no meaning in the model. -/
inductive Refusal where
  /-- Raised by `exec`'s arm of an instruction that has no meaning yet. Safe. -/
  | notModelled (mnemonic : String)
  deriving DecidableEq, Repr

/-- How the body of an instruction ends before its last write: by a fatal error of the machine
(60_exceptions.md R226), or by a fault of the model. -/
inductive Stop where
  | raise (c : Cause)
  | fault (f : Fault)
  deriving DecidableEq, Repr

/-- What `exec` and `step` answer. -/
abbrev Result := Host.Outcome State Fault Refusal

/-- The state after reset of a core built with configuration `c`, no program ever loaded and an absent
slot (10_state.md R40, 70_reset_and_hazards.md R260; logs 11 to 13 for the host's side). -/
def State.resetWith (c : Config) : State where
  engine := .running
  cause := .none
  ip := 0
  plen := 0
  prog := []
  stack := []
  globals := List.replicate c.globalCap 0
  vh := { hp := 0, vc := 0, cells := List.replicate c.heapCap 0,
          table := List.replicate c.vecCap { size := 0, base := 0 } }
  events := []
  slot := none
  prompted := false
  host := {}
  draws := 0
  progCap := c.progCap
  stackCap := c.stackCap
  opmap := c.opmap

/-- The machine right after reset, at the default configuration. -/
def State.reset : State := State.resetWith Config.default

/-- `SP`: -1 when the stack is empty (10_state.md R25). -/
def State.sp (s : State) : Int := (s.stack.length : Int) - 1

/-- `GLOBAL_CAP` (log 1). -/
def State.globalCap (s : State) : Nat := s.globals.length

/-- `HEAP_CAP` (log 1). -/
def State.heapCap (s : State) : Nat := s.vh.cells.length

/-- `VEC_CAP` (log 1). -/
def State.vecCap (s : State) : Nat := s.vh.table.length

/-- The configuration record of a core (00_scope.md R5). -/
def State.config (s : State) : Config where
  progCap := s.progCap
  stackCap := s.stackCap
  globalCap := s.globalCap
  heapCap := s.heapCap
  vecCap := s.vecCap
  opmap := s.opmap

end Sys2Proof.Machine
end

