-- ==== Sys2Proof/Machine/Ops.lean ====
section
/-! DEFINITION. The named operations every instruction is built from: program store, operand stack, global
table, output history, draws, the fatal error `raise` and the warning `warn`, the end of a step, and the
host's load, reset and status ports. -/

namespace Sys2Proof.Machine

/-! ### The program store (20_memory.md R61, R77) -/

/-- The byte at an address; an unlisted address reads as 0 (log 4). -/
def Memory.read : Memory → Nat → Byte
  | [], _ => 0
  | (b, v) :: rest, a => if b = a then v else Memory.read rest a

/-- A cell list entry, or nothing for the byte an unlisted address reads as. -/
def Memory.entry (a : Nat) (v : Byte) : Memory := if v = 0 then [] else [(a, v)]

/-- Store one byte, keeping the canonical form. Only the load port writes (20_memory.md R77). -/
def Memory.write : Memory → Nat → Byte → Memory
  | [], a, v => Memory.entry a v
  | (b, w) :: rest, a, v =>
    if a < b then Memory.entry a v ++ (b, w) :: rest
    else if a = b then Memory.entry a v ++ rest
    else (b, w) :: Memory.write rest a v

/-- Store bytes at consecutive addresses. -/
def Memory.writeBytes : Memory → Nat → List Byte → Memory
  | m, _, [] => m
  | m, a, v :: rest => Memory.writeBytes (Memory.write m a v) (a + 1) rest

/-- The canonical form: addresses strictly rising, no byte 0 listed. -/
def Memory.wf (m : Memory) : Bool :=
  decide ((m.map Prod.fst).Pairwise (· < ·)) && m.all fun c => decide (c.2 ≠ 0)

/-- The program bytes from the instruction pointer on, as far as the longest instruction reaches and
never past `plen` (30_encoding.md R101, R103, R104). -/
def fetchWindow (s : State) : List Byte :=
  (List.range (min 9 (s.plen - s.ip))).map fun k => Memory.read s.prog (s.ip + k)

/-! ### Codes, events, errors (60_exceptions.md) -/

/-- The code of a halt cause (60_exceptions.md R221). -/
def Cause.code : Cause → Nat
  | .none => 0
  | .haltInsn => 1
  | .endOfProgram => 2
  | .decodePastEnd => 3
  | .unknownOpcode => 4
  | .divisionByZero => 5
  | .invalidGlobalIndex => 6
  | .invalidVectorHandle => 7
  | .vectorSizeMismatch => 8
  | .outOfMemory => 9
  | .tooManyVectors => 10
  | .insufficientOperands => 11
  | .stackOverflow => 12
  | .stackUnderflow => 13
  | .invalidVectorSize => 14
  | .invalidJumpTarget => 15

/-- The code of a warning (60_exceptions.md R222). -/
def Warning.code : Warning → Nat
  | .malformedInput => 16
  | .persistWriteFailure => 17
  | .persistReadFailure => 18
  | .persistMalformed => 19

/-- `emit E` (20_memory.md R80). -/
def emit (e : Event) (s : State) : State := { s with events := s.events ++ [e] }

/-- `raise C`, the machine's one way of taking an error (60_exceptions.md R226): halt, record the cause,
report it with the address of the failing opcode. The status is all that is saved, no handler runs, and
there is no return (R230). -/
def raise (c : Cause) (s : State) : State :=
  emit (.diag c.code s.ip) { s with engine := .halted, cause := c }

/-- `warn W`, where there is one (60_exceptions.md R228). To be used before the instruction pointer moves. -/
def warn (w : Option Warning) (s : State) : State :=
  { s with events := s.events ++ (w.map fun x => Event.diag x.code s.ip).toList }

/-- The clean halt of the end of the program (43_control.md R185). -/
def haltAtEnd (s : State) : State := { s with engine := .halted, cause := .endOfProgram }

/-- The end of an instruction's body run from `s`: its result, or the error taken in `s` itself, which
discards every write of the body (60_exceptions.md R226). -/
def settle (s : State) : Except Stop State → Result
  | .ok t => .next t
  | .error (.raise c) => .next (raise c s)
  | .error (.fault f) => .fault f

/-- `ip <- ip0 + n` (43_control.md R180). -/
def advance (n : Nat) (s : State) : State := { s with ip := s.ip + n }

/-- One free value has been drawn (log 12). -/
def countDraw (s : State) : State := { s with draws := s.draws + 1 }

/-- The NaN that an invalid operation of this step returns (40_arith.md R134, log 5). -/
def nanDraw (s : State) : F64 := quietNaN (Config.nanBits s.draws)

/-! ### The operand stack (10_state.md R26 to R29) -/

/-- `Push(v)` (10_state.md R27). -/
def push (v : F64) (s : State) : Except Stop State :=
  if s.stack.length < s.stackCap then .ok { s with stack := v :: s.stack }
  else .error (.raise .stackOverflow)

/-- `Pop()` (10_state.md R28): the old top and the state without it. -/
def pop (s : State) : Except Stop (F64 × State) :=
  match s.stack with
  | [] => .error (.raise .stackUnderflow)
  | v :: rest => .ok (v, { s with stack := rest })

/-- `Peek()` (10_state.md R29). -/
def peek (s : State) : Except Stop F64 :=
  match s.stack with
  | [] => .error (.raise .stackUnderflow)
  | v :: _ => .ok v

/-! ### The global table (10_state.md R31) -/

/-- `GLoad(i)`, for an index already checked. -/
def gload (i : Nat) (s : State) : F64 := s.globals.getD i posZero

/-- `GStore(i, v)`, for an index already checked. -/
def gstore (i : Nat) (v : F64) (s : State) : State := { s with globals := s.globals.set i v }

/-! ### The host's ports (20_memory.md R82, R83, R89; 70_reset_and_hazards.md R260, R264) -/

/-- The seven registers of the status port (20_memory.md R89). -/
def statusPort (s : State) : Engine × Cause × Nat × Nat × Int × Nat × Nat :=
  (s.engine, s.cause, s.ip, s.plen, s.sp, s.vh.hp, s.vh.vc)

/-- "error status": the host reads it as `CAUSE >= 3` (60_exceptions.md R221). -/
def errorStatus (s : State) : Bool := decide (3 ≤ s.cause.code)

/-- Reset asserted and released (70_reset_and_hazards.md R260): every core register and cell takes its
reset value but `P` and `PLEN`; the slot and the rest of the host's side stay (log 19). -/
def assertReset (s : State) : State :=
  { State.resetWith s.config with
    prog := s.prog, plen := s.plen, slot := s.slot, host := s.host, draws := s.draws }

/-- The load port, usable while reset is asserted: refused if the program is too long, otherwise the
bytes replace the program (70_reset_and_hazards.md R264). -/
def loadProgram (b : List Byte) (s : State) : Option State :=
  if b.length ≤ s.progCap then some { s with prog := Memory.writeBytes [] 0 b, plen := b.length }
  else none

/-- Boot: assert reset, load, release reset (70_reset_and_hazards.md R263). -/
def boot (b : List Byte) (s : State) : Option State := loadProgram b (assertReset s)

end Sys2Proof.Machine
end

