-- ==== Sys2Proof/Machine/Arith.lean ====
section
/-! DEFINITION. PUSH, ADD, SUB, MUL, DIV, RELU, GT, LT, EQ (40_arith.md). -/

namespace Sys2Proof.Machine

/-- "pop b, pop a, push `a <op> b`" (40_arith.md R145). -/
def binary (op : F64 → F64 → F64) (s : State) : Except Stop State := do
  let (b, s1) ← pop s
  let (a, s2) ← pop s1
  push (op a b) s2

/-- The shape of ADD, SUB and MUL: a computed result, which may be a NaN whose bits are a draw, and one
byte of instruction (40_arith.md R136 to R138). -/
def computed (op : F64 → F64 → F64 → F64) (s : State) : Except Stop State := do
  let t ← binary (op (nanDraw s)) s
  return advance 1 (countDraw t)

/-- The shape of GT, LT and EQ (40_arith.md R141 to R143). -/
def compared (p : F64 → F64 → Bool) (s : State) : Except Stop State := do
  let t ← binary (fun a b => truth (p a b)) s
  return advance 1 t

/-- PUSH (40_arith.md R135). -/
def execPush (lit : F64) (s : State) : Result :=
  settle s do
    let t ← push lit s
    return advance 9 t

/-- ADD (40_arith.md R136). -/
def execAdd (s : State) : Result := settle s (computed fadd s)

/-- SUB (40_arith.md R137). -/
def execSub (s : State) : Result := settle s (computed fsub s)

/-- MUL (40_arith.md R138). -/
def execMul (s : State) : Result := settle s (computed fmul s)

/-- DIV: both pops, then the zero test, then the division (40_arith.md R139). -/
def execDiv (s : State) : Result :=
  settle s do
    let (b, s1) ← pop s
    let (a, s2) ← pop s1
    if fisZero b then
      .error (.raise .divisionByZero)
    else
      let t ← push (fdiv (nanDraw s) a b) s2
      return advance 1 (countDraw t)

/-- RELU (40_arith.md R140). -/
def execRelu (s : State) : Result :=
  settle s do
    let (x, s1) ← pop s
    let t ← push (if fgt x posZero then x else posZero) s1
    return advance 1 t

/-- GT (40_arith.md R141). -/
def execGt (s : State) : Result := settle s (compared fgt s)

/-- LT (40_arith.md R142). -/
def execLt (s : State) : Result := settle s (compared flt s)

/-- EQ (40_arith.md R143). -/
def execEq (s : State) : Result := settle s (compared (nearlyEqual (nanDraw s)) s)

end Sys2Proof.Machine
end

