-- ==== Sys2Proof/Machine/Operands.lean ====
section
/-! DEFINITION. What an operand denotes: the sign-extended immediate as a global index or a jump offset
(30_encoding.md R109), and a stack value as a vector handle (42_vector.md R162). -/

namespace Sys2Proof.Machine

/-- `sext` (00_scope.md R8). -/
abbrev sext (imm : I32) : Int := imm.toInt

/-- The global index an immediate denotes, if `0 <= i < GLOBAL_CAP` (41_globals.md R152, 10_state.md R31). -/
def globalIndex (imm : I32) (globalCap : Nat) : Option Nat :=
  if 0 ≤ sext imm ∧ sext imm < globalCap then some (sext imm).toNat else none

/-- The target of a taken jump at `ip`, `ip + 5 + k` in unbounded integers, if it is within `[0, plen]`
(43_control.md R186). -/
def jumpTarget (ip plen : Nat) (imm : I32) : Option Nat :=
  let t : Int := ip + 5 + sext imm
  if 0 ≤ t ∧ t ≤ plen then some t.toNat else none

/-- `handle_index`: the descriptor index a stack value denotes. It must be finite, integral, not negative
(`-0.0` is 0) and below the descriptor count (42_vector.md R162). -/
def handleIndex (v : F64) (vc : Nat) : Option Nat :=
  if isFinite v ∧ magnitude v % unit = 0 ∧ (v.msb = false ∨ magnitude v = 0) ∧ magnitude v / unit < vc then
    some (magnitude v / unit)
  else none

end Sys2Proof.Machine
end

