-- ==== Sys2Proof/Machine/Control.lean ====
section
/-! DEFINITION. JMPF, JMP, HALT (43_control.md). -/

namespace Sys2Proof.Machine

/-- A taken jump from the instruction at `s.ip` (43_control.md R186). -/
def jump (imm : I32) (s : State) : Except Stop State :=
  match jumpTarget s.ip s.plen imm with
  | none => .error (.raise .invalidJumpTarget)
  | some t => .ok { s with ip := t }

/-- JMPF: the condition is popped either way; both zeros are false (43_control.md R181). -/
def execJmpf (imm : I32) (s : State) : Result :=
  settle s do
    let (c, s1) ← pop s
    if fisZero c then jump imm s1 else return advance 5 s1

/-- JMP (43_control.md R182). -/
def execJmp (imm : I32) (s : State) : Result := settle s (jump imm s)

/-- HALT: a clean halt, the pointer past the opcode, no `Diag` (43_control.md R183). -/
def execHalt (s : State) : Result :=
  .next (advance 1 { s with engine := .halted, cause := .haltInsn })

end Sys2Proof.Machine
end

