-- ==== Sys2Proof/Machine/Globals.lean ====
section
/-! DEFINITION. GSTORE and GLOAD (41_globals.md). -/

namespace Sys2Proof.Machine

/-- GSTORE: the index is checked before the stack (41_globals.md R150). -/
def execGstore (imm : I32) (s : State) : Result :=
  settle s
    (match globalIndex imm s.globalCap with
    | none => .error (.raise .invalidGlobalIndex)
    | some i => do
      let (v, s1) ← pop s
      return advance 5 (gstore i v s1))

/-- GLOAD: the index is checked before the stack (41_globals.md R151). -/
def execGload (imm : I32) (s : State) : Result :=
  settle s
    (match globalIndex imm s.globalCap with
    | none => .error (.raise .invalidGlobalIndex)
    | some i => do
      let t ← push (gload i s) s
      return advance 5 t)

end Sys2Proof.Machine
end

