-- ==== Sys2Proof/Machine/Io.lean ====
section
/-! DEFINITION. PRINT, RAND, INPUT (44_io.md). -/

namespace Sys2Proof.Machine

/-- PRINT: peek, emit, pop (44_io.md R190). -/
def execPrint (s : State) : Result :=
  settle s do
    let v ← peek s
    let (_, t) ← pop (emit (.print v) s)
    return advance 1 t

/-- A 64-bit word as an admissible answer of the random port, a pattern from that of `+0.0` to
`0x3FEFFFFFFFFFFFFF` (20_memory.md R86); every admissible pattern stands for itself (log 6). -/
def randomValue (w : BitVec 64) : F64 := BitVec.ofNat 64 (w.toNat % 0x3FF0000000000000)

/-- `ask RandReq` (20_memory.md R86): the host's ready answer, else a free value. -/
def askRandom (s : State) : F64 × State :=
  let s' := emit .randReq (countDraw s)
  match s.host.randoms with
  | w :: rest => (randomValue w, { s' with host := { s.host with randoms := rest } })
  | [] => (randomValue (Config.randomWord s.draws), s')

/-- RAND: the stack is checked before the request (44_io.md R192). -/
def execRand (s : State) : Result :=
  settle s
    (if s.stack.length < s.stackCap then do
      let t ← push (askRandom s).1 (askRandom s).2
      return advance 1 t
    else .error (.raise .stackOverflow))

/-- The engine inside an INPUT that waits, entered once per INPUT: the `Prompt` is emitted, and `STATE`,
`ip` and all other state are as before the instruction (44_io.md R195). No step ends here (00_scope.md R9);
the host sees it at its ports and may assert reset in it (70_reset_and_hazards.md R260; log 7). -/
def awaitLine (s : State) : State :=
  if s.prompted then s else { emit .prompt s with prompted := true }

/-- `ask InputReq`, which ends the wait (20_memory.md R81, R85): the host's ready answer, else a free value.
A silent host leaves the engine waiting, with no successor state (44_io.md R195; logs 7 and 8). -/
def askLine (s : State) : Except Stop (InputAnswer × State) :=
  let s' := { emit .inputReq (countDraw (awaitLine s)) with prompted := false }
  match s.host.lines with
  | a :: rest => .ok (a, { s' with host := { s.host with lines := rest } })
  | [] => if s.host.silent then .error (.fault .inputWait) else .ok (Config.lineAnswer s.draws, s')

/-- The value an answer pushes: a parse failure pushes `+0.0` (44_io.md R194). -/
def inputValue : InputAnswer → F64
  | .value v => v
  | .parseFail => posZero

/-- The warning an answer gives (44_io.md R194). -/
def inputWarning : InputAnswer → Option Warning
  | .value _ => none
  | .parseFail => some .malformedInput

/-- INPUT: the stack is checked before the prompt (44_io.md R194). -/
def execInput (s : State) : Result :=
  settle s
    (if s.stack.length < s.stackCap then do
      let (a, u) ← askLine s
      let t ← push (inputValue a) u
      return advance 1 (warn (inputWarning a) t)
    else .error (.raise .stackOverflow))

end Sys2Proof.Machine
end

