-- ==== Sys2Proof/Machine/Codec.lean ====
section
/-! DEFINITION. The persistence image (45_persist.md R200 to R204): encoding the vector heap to bytes, and
decoding with the checks that keep the heap invariants. -/

namespace Sys2Proof.Machine

/-- The length of every image, `8 + 8 * HEAP_CAP + 8 * VEC_CAP` (45_persist.md R202). -/
def imageLength (heapCap vecCap : Nat) : Nat := 8 + 8 * heapCap + 8 * vecCap

/-- The eight bytes of a descriptor: size, then base (45_persist.md R201). -/
def descriptorLe (d : Descriptor) : List Byte := i32Le d.size ++ i32Le d.base

/-- `EncodeImage` (45_persist.md R201, R203). -/
def encodeImage (v : VectorHeap) : List Byte :=
  leBytes 4 v.hp ++ (leBytes 4 v.vc ++ (v.cells.flatMap f64Le ++ v.table.flatMap descriptorLe))

/-- The first `n` eight-byte groups of a byte sequence. -/
def groups8 : Nat → List Byte → List (List Byte)
  | 0, _ => []
  | n + 1, b => b.take 8 :: groups8 n (b.drop 8)

/-- A descriptor from its eight bytes. -/
def leDescriptor (b : List Byte) : Descriptor := { size := leI32 (b.take 4), base := leI32 (b.drop 4) }

/-- What every live descriptor satisfies: `size >= 1`, `base >= 0`, `base + size <= hp`
(10_state.md R34 (b); 45_persist.md R204 (4)). -/
def descriptorOk (hp : Nat) (d : Descriptor) : Bool :=
  decide (1 ≤ d.size.toInt ∧ 0 ≤ d.base.toInt ∧ d.base.toInt + d.size.toInt ≤ hp)

/-- The heap invariants (a) and (b) of 10_state.md R34. -/
def heapOk (v : VectorHeap) : Bool :=
  decide (v.hp ≤ v.cells.length ∧ v.vc ≤ v.table.length) && (v.table.take v.vc).all (descriptorOk v.hp)

/-- The heap an image of the right length describes, unchecked; the two counts are signed
(45_persist.md R204). -/
def readImage (heapCap vecCap : Nat) (b : List Byte) : VectorHeap where
  hp := (leI32 (b.take 4)).toInt.toNat
  vc := (leI32 ((b.drop 4).take 4)).toInt.toNat
  cells := (groups8 heapCap (b.drop 8)).map leF64
  table := (groups8 vecCap (b.drop (8 + 8 * heapCap))).map leDescriptor

/-- `DecodeImage` (45_persist.md R204): `none` is `Malformed`. The checks are those of the rule, in its
order: the length, `hp'`, `vc'`, the live descriptors. -/
def decodeImage (heapCap vecCap : Nat) (b : List Byte) : Option VectorHeap :=
  if b.length ≠ imageLength heapCap vecCap then none
  else if (leI32 (b.take 4)).toInt < 0 ∨ (heapCap : Int) < (leI32 (b.take 4)).toInt then none
  else if (leI32 ((b.drop 4).take 4)).toInt < 0 ∨ (vecCap : Int) < (leI32 ((b.drop 4).take 4)).toInt then none
  else
    let v := readImage heapCap vecCap b
    if (v.table.take v.vc).all (descriptorOk v.hp) then some v else none

end Sys2Proof.Machine
end

