-- ==== Sys2Proof/Machine/Persist.lean ====
section
/-! DEFINITION. HSAVE and HLOAD (45_persist.md R205, R206) over the slot port (20_memory.md R87). -/

namespace Sys2Proof.Machine

/-- `ask SlotWrite(img)`: the host's ready answer, else a free value (20_memory.md R87). -/
def askWrite (s : State) : WriteAnswer × State :=
  let s' := emit (.slotWrite (encodeImage s.vh)) (countDraw s)
  match s.host.writes with
  | a :: rest => (a, { s' with host := { s.host with writes := rest } })
  | [] => (Config.writeAnswer s.draws, s')

/-- What the slot holds after a write: the image, or after a failure whatever the answer says
(20_memory.md R87). -/
def slotAfter (a : WriteAnswer) (img : List Byte) : Option (List Byte) :=
  match a with
  | .ok => some img
  | .fail after => after

/-- The warning of a slot write (45_persist.md R205). -/
def writeWarning : WriteAnswer → Option Warning
  | .ok => none
  | .fail _ => some .persistWriteFailure

/-- What HSAVE does with the host's answer (45_persist.md R205). -/
def written (a : WriteAnswer) (img : List Byte) (s : State) : State :=
  warn (writeWarning a) { s with slot := slotAfter a img }

/-- HSAVE (45_persist.md R205). -/
def execHsave (s : State) : Result :=
  .next (advance 1 (written (askWrite s).1 (encodeImage s.vh) (askWrite s).2))

/-- `ask SlotRead`: the host's ready answer, else a free value (20_memory.md R87). -/
def askRead (s : State) : ReadAnswer × State :=
  let s' := emit .slotRead (countDraw s)
  match s.host.reads with
  | a :: rest => (a, { s' with host := { s.host with reads := rest } })
  | [] => (Config.readAnswer s.draws, s')

/-- The bytes the host delivers: none when the slot is absent or it reports a failure (20_memory.md R87). -/
def delivered (slot : Option (List Byte)) (a : ReadAnswer) : Option (List Byte) :=
  match slot with
  | none => none
  | some b =>
    match a with
    | .deliver => some b
    | .fail => none

/-- The vector heap after HLOAD and its warning: all or nothing (45_persist.md R206). -/
def loadOutcome (bytes : Option (List Byte)) (s : State) : VectorHeap × Option Warning :=
  match bytes with
  | none => (s.vh, some .persistReadFailure)
  | some b =>
    match decodeImage s.heapCap s.vecCap b with
    | none => (s.vh, some .persistMalformed)
    | some v => (v, none)

/-- What HLOAD does with the delivered bytes (45_persist.md R206). -/
def loaded (bytes : Option (List Byte)) (s : State) : State :=
  warn (loadOutcome bytes s).2 { s with vh := (loadOutcome bytes s).1 }

/-- HLOAD (45_persist.md R206). -/
def execHload (s : State) : Result :=
  .next (advance 1 (loaded (delivered s.slot (askRead s).1) (askRead s).2))

end Sys2Proof.Machine
end

