-- ==== Sys2Proof/Machine/Vector.lean ====
section
/-! DEFINITION. The bump allocator and the dot-product engine: MKVEC and DOT (42_vector.md). -/

namespace Sys2Proof.Machine

/-- The heap after a vector of the given cells is allocated: cells written from `hp` on, a new live
descriptor, both counts advanced (42_vector.md R163). -/
def allocate (size : I32) (values : List F64) (v : VectorHeap) : VectorHeap where
  hp := v.hp + values.length
  vc := v.vc + 1
  cells := v.cells.take v.hp ++ (values ++ v.cells.drop (v.hp + values.length))
  table := v.table.set v.vc { size := size, base := BitVec.ofNat 32 v.hp }

/-- MKVEC: size, heap, table, operands are checked in this order. The stack is held top first, so the
popped values reversed are in stack order, which is memory order (42_vector.md R163). -/
def execMkvec (imm : I32) (s : State) : Result :=
  let n := (sext imm).toNat
  settle s
    (if sext imm ≤ 0 then .error (.raise .invalidVectorSize)
    else if s.heapCap < s.vh.hp + n then .error (.raise .outOfMemory)
    else if s.vecCap ≤ s.vh.vc then .error (.raise .tooManyVectors)
    else if s.stack.length < n then .error (.raise .insufficientOperands)
    else .ok (advance 5 { s with
      stack := f64OfNat s.vh.vc :: s.stack.drop n
      vh := allocate imm (s.stack.take n).reverse s.vh }))

/-- The cells of a vector, in ascending address order, if they lie in the heap (42_vector.md R160). -/
def vectorCells (d : Descriptor) (cells : List F64) : Option (List F64) :=
  if 0 ≤ d.size.toInt ∧ 0 ≤ d.base.toInt ∧ d.base.toInt + d.size.toInt ≤ cells.length then
    some ((cells.drop d.base.toInt.toNat).take d.size.toInt.toNat)
  else none

/-- `DotEngine`: from `+0.0`, ascending, product and sum each rounded (42_vector.md R165). -/
def dotEngine (nan : F64) (xs ys : List F64) : F64 :=
  (xs.zip ys).foldl (fun acc p => fadd nan acc (fmul nan p.1 p.2)) posZero

/-- The dot product of two live descriptors: sizes compared, then computed (42_vector.md R164). -/
def dotOf (nan : F64) (da db : Descriptor) (cells : List F64) : Except Stop F64 :=
  if da.size ≠ db.size then .error (.raise .vectorSizeMismatch)
  else
    match vectorCells da cells, vectorCells db cells with
    | some xs, some ys => .ok (dotEngine nan xs ys)
    | _, _ => .error (.fault .noSuchCell)

/-- DOT (42_vector.md R164). -/
def execDot (s : State) : Result :=
  settle s do
    let (hb, s1) ← pop s
    let (ha, s2) ← pop s1
    match handleIndex ha s.vh.vc, handleIndex hb s.vh.vc with
    | some ia, some ib =>
      match s.vh.table[ia]?, s.vh.table[ib]? with
      | some da, some db =>
        let r ← dotOf (nanDraw s) da db s.vh.cells
        let t ← push r s2
        return advance 1 (countDraw t)
      | _, _ => .error (.fault .noSuchCell)
    | _, _ => .error (.raise .invalidVectorHandle)

end Sys2Proof.Machine
end

