-- ==== Sys2Proof/Machine/Dispatch.lean ====
section
/-! DEFINITION. One arm per instruction of the opcode table; the dispatch is closed (43_control.md R188). -/

namespace Sys2Proof.Machine

def exec (i : Instr) (s : State) : Host.Outcome State Fault Refusal :=
  match i with
  | .halt => Sys2Proof.Machine.execHalt s
  | .push lit => Sys2Proof.Machine.execPush lit s
  | .add => Sys2Proof.Machine.execAdd s
  | .sub => Sys2Proof.Machine.execSub s
  | .mul => Sys2Proof.Machine.execMul s
  | .div => Sys2Proof.Machine.execDiv s
  | .print => Sys2Proof.Machine.execPrint s
  | .gstore imm => Sys2Proof.Machine.execGstore imm s
  | .gload imm => Sys2Proof.Machine.execGload imm s
  | .mkvec imm => Sys2Proof.Machine.execMkvec imm s
  | .dot => Sys2Proof.Machine.execDot s
  | .relu => Sys2Proof.Machine.execRelu s
  | .gt => Sys2Proof.Machine.execGt s
  | .lt => Sys2Proof.Machine.execLt s
  | .eq => Sys2Proof.Machine.execEq s
  | .jmpf imm => Sys2Proof.Machine.execJmpf imm s
  | .jmp imm => Sys2Proof.Machine.execJmp imm s
  | .rand => Sys2Proof.Machine.execRand s
  | .input => Sys2Proof.Machine.execInput s
  | .hsave => Sys2Proof.Machine.execHsave s
  | .hload => Sys2Proof.Machine.execHload s

end Sys2Proof.Machine
end

