-- ==== Sys2Proof/Machine/Step.lean ====
section
/-! DEFINITION. One step of the engine (43_control.md R188), and the placing of an instruction where the
next step fetches it. -/

namespace Sys2Proof.Machine

/-- The engine's step: none while halted; else decode at the instruction pointer and apply the outcome's
rule (43_control.md R184, R185, R188; 30_encoding.md R103, R104, R110). -/
def step (s : State) : Host.Outcome State Fault Refusal :=
  match s.engine with
  | .halted => .fault .halted
  | .running =>
    match decode s.opmap (fetchWindow s) with
    | .endOfProgram => .next (haltAtEnd s)
    | .unknown _ => .next (raise .unknownOpcode s)
    | .truncated _ => .next (raise .decodePastEnd s)
    | .insn i _ => exec i s

/-- The state with the instruction of a table word stored at the instruction pointer, inside the program
and with the engine running, so that the next step executes it. It stands for the host's load port, the
only way a program comes into the store (log 15). -/
def State.withFetchWord (s : State) (nbits w : Nat) : State :=
  { s with
    engine := .running
    cause := .none
    prog := Memory.writeBytes s.prog s.ip (tableBytes nbits w)
    plen := max s.plen (s.ip + 9) }

end Sys2Proof.Machine
end

