-- ==== Sys2Proof/Safety.lean ====
section
/-! DEFINITION. The terms in which claims are stated: the invariant of reachable states, how a run ends,
which causes an instruction can raise, and the canonical form of a heap that only grew by allocation. -/

namespace Sys2Proof.Machine

/-- What holds in every state a run reaches (10_state.md R22 to R25, R34, R39; 00_scope.md R5), with the
program store in the model's canonical form. -/
structure Inv (s : State) : Prop where
  /-- the configuration record meets its constraints (00_scope.md R5) -/
  config : s.config.WellFormed = true
  /-- `CAUSE` is `NONE` exactly while Running (10_state.md R22) -/
  cause : s.engine = .running ↔ s.cause = .none
  /-- the program store is in canonical form -/
  canonical : Memory.wf s.prog = true
  /-- nothing is stored beyond the program -/
  within : ∀ c ∈ s.prog, c.1 < s.plen
  /-- `0 <= ip <= plen` (10_state.md R23) -/
  ip : s.ip ≤ s.plen
  /-- `plen <= PROG_CAP` (10_state.md R23) -/
  plen : s.plen ≤ s.progCap
  /-- `sp < STACK_CAP` (10_state.md R25) -/
  stack : s.stack.length ≤ s.stackCap
  /-- the heap invariants (a) and (b) (10_state.md R34) -/
  heap : heapOk s.vh = true
  /-- the engine is inside an INPUT's wait only while it runs, at an INPUT that has room for its answer
  (10_state.md R38, 44_io.md R194, R195) -/
  wait : s.prompted = true →
    s.engine = .running ∧ decode s.opmap (fetchWindow s) = .insn .input 1 ∧ s.stack.length < s.stackCap

/-- A run that ended cleanly (70_reset_and_hazards.md R267). -/
def endedCleanly (s : State) : Bool :=
  decide (s.engine = .halted ∧ (s.cause = .haltInsn ∨ s.cause = .endOfProgram))

/-- The causes with which an instruction can halt, in priority order (60_exceptions.md R223). -/
def haltCauses : Mnemonic → List Cause
  | .halt => [.haltInsn]
  | .push => [.decodePastEnd, .stackOverflow]
  | .add | .sub | .mul => [.stackUnderflow]
  | .div => [.stackUnderflow, .divisionByZero]
  | .relu | .gt | .lt | .eq => [.stackUnderflow]
  | .print => [.stackUnderflow]
  | .gstore => [.decodePastEnd, .invalidGlobalIndex, .stackUnderflow]
  | .gload => [.decodePastEnd, .invalidGlobalIndex, .stackOverflow]
  | .mkvec => [.decodePastEnd, .invalidVectorSize, .outOfMemory, .tooManyVectors, .insufficientOperands]
  | .dot => [.stackUnderflow, .invalidVectorHandle, .vectorSizeMismatch]
  | .jmpf => [.decodePastEnd, .stackUnderflow, .invalidJumpTarget]
  | .jmp => [.decodePastEnd, .invalidJumpTarget]
  | .rand => [.stackOverflow]
  | .input => [.stackOverflow]
  | .hsave | .hload => []

/-- The non-fatal diagnostics an instruction can give (60_exceptions.md R223). -/
def warningsOf : Mnemonic → List Warning
  | .input => [.malformedInput]
  | .hsave => [.persistWriteFailure]
  | .hload => [.persistReadFailure, .persistMalformed]
  | .halt | .push | .add | .sub | .mul | .div | .print | .gstore | .gload | .mkvec | .dot
  | .relu | .gt | .lt | .eq | .jmpf | .jmp | .rand => []

/-- A running engine stands at the opcode of `m` and the operand reaches beyond the end of the program
(30_encoding.md R103, R104). -/
def TruncatedAt (m : Mnemonic) (s : State) : Prop :=
  s.engine = .running ∧ s.opmap.WellFormed = true ∧ s.ip < s.plen ∧
    Memory.read s.prog s.ip = s.opmap.byteOf m ∧ s.plen < s.ip + m.length

/-- Descriptors that follow each other from `base` on without gap or overlap, ending at `hp`
(10_state.md R34 (d)). -/
def bumpFrom (hp : Nat) : Int → List Descriptor → Bool
  | base, [] => decide (base = hp)
  | base, d :: rest => decide (d.base.toInt = base) && bumpFrom hp (base + d.size.toInt) rest

/-- The canonical form of a heap that grew by allocation alone (10_state.md R34 (d)). -/
def bumpForm (v : VectorHeap) : Bool := bumpFrom v.hp 0 (v.table.take v.vc)

end Sys2Proof.Machine
end

