-- ==== Sys2Proof/Certificates/Slice0/Obligations.lean ====
section
/-! DEFINITION. The statements about this model, for the provers. Each docstring names the rules of spec/
it formalises. `raise c s` is the state after a fatal error, which `RaiseChangesOnlyStatus` spells out. -/

open Sys2Proof Sys2Proof.Machine
open Host (Outcome)

/-! ## Encoding -/

/-- Under every injective opcode map, decoding the encoding of any instruction, whatever follows it, gives
that instruction with every operand bit, and its length (30_encoding.md sections 1 to 4). -/
def Obligations.DecodeInvertsEncode : Prop :=
  ∀ (o : OpMap) (i : Instr) (rest : List Byte), o.WellFormed = true →
    decode o (encode o i ++ rest) = .insn i i.length

/-- Whatever decodes to an instruction starts with exactly that instruction's encoding, so no two byte
sequences of an instruction's length stand for the same instruction (30_encoding.md sections 1 to 4). -/
def Obligations.EncodeInvertsDecode : Prop :=
  ∀ (o : OpMap) (bytes : List Byte) (i : Instr) (n : Nat), decode o bytes = .insn i n →
    n = i.length ∧ n ≤ bytes.length ∧ encode o i = bytes.take n

/-- R110: at any address of any program decoding has exactly one of its four outcomes, and which one is
decided by the program bytes from that address on; the operand is read from the bytes after the opcode. -/
def Obligations.DecodeFollowsProgramStore : Prop :=
  ∀ s : State, s.opmap.WellFormed = true → s.ip ≤ s.plen →
    (s.ip = s.plen → decode s.opmap (fetchWindow s) = .endOfProgram) ∧
    (s.ip < s.plen → (∀ m, s.opmap.byteOf m ≠ Memory.read s.prog s.ip) →
      decode s.opmap (fetchWindow s) = .unknown (Memory.read s.prog s.ip)) ∧
    ∀ m, s.ip < s.plen → s.opmap.byteOf m = Memory.read s.prog s.ip →
      (s.plen < s.ip + m.length → decode s.opmap (fetchWindow s) = .truncated m) ∧
      (s.ip + m.length ≤ s.plen → decode s.opmap (fetchWindow s) =
        .insn (instrOf m ((List.range m.operandLength).map fun k => Memory.read s.prog (s.ip + 1 + k)))
          m.length)

/-- R67: the byte at the lowest address holds bits 7:0, in the 4-byte and in the 8-byte operand. -/
def Obligations.OperandsAreLittleEndian : Prop :=
  (∀ b0 b1 b2 b3 : Byte, leI32 [b0, b1, b2, b3] = b3 ++ b2 ++ b1 ++ b0 ∧
    i32Le (b3 ++ b2 ++ b1 ++ b0) = [b0, b1, b2, b3]) ∧
  ∀ b0 b1 b2 b3 b4 b5 b6 b7 : Byte,
    leF64 [b0, b1, b2, b3, b4, b5, b6, b7] = b7 ++ b6 ++ b5 ++ b4 ++ b3 ++ b2 ++ b1 ++ b0 ∧
    f64Le (b7 ++ b6 ++ b5 ++ b4 ++ b3 ++ b2 ++ b1 ++ b0) = [b0, b1, b2, b3, b4, b5, b6, b7]

/-- Words of 95_test_vectors.md sections 2.1, 2.5 and 2.7 decode, under the default map, to the
instructions they are listed as. -/
def Obligations.SpecWordsDecode : Prop :=
  decode .default [0x00] = .insn .halt 1 ∧
  decode .default [0x01, 0, 0, 0, 0, 0, 0, 0, 0x40] = .insn (.push 0x4000000000000000) 9 ∧
  decode .default [0x07, 0xFF, 0xFF, 0xFF, 0xFF] = .insn (.gstore (-1)) 5 ∧
  decode .default [0x09, 0x02, 0x01, 0x00, 0x00] = .insn (.mkvec 258) 5 ∧
  decode .default [0x10, 0xF1, 0xFF, 0xFF, 0xFF] = .insn (.jmp (-15)) 5 ∧
  decode .default [0x15] = .unknown 0x15 ∧
  decode .default [0x08, 0x03, 0x00, 0x00] = .truncated .gload

/-! ## The step -/

/-- R188: while running, when the bytes at the instruction pointer decode to an instruction, the step is
that instruction's own rule; the step adds nothing around it. -/
def Obligations.StepRunsDecodedInstruction : Prop :=
  ∀ (s : State) (i : Instr) (n : Nat), s.engine = .running →
    decode s.opmap (fetchWindow s) = .insn i n → step s = exec i s

/-- R185: at the end of the program the engine halts cleanly; nothing else changes, no `Diag`. -/
def Obligations.EndOfProgramHaltsCleanly : Prop :=
  ∀ s : State, s.engine = .running → s.ip = s.plen →
    step s = .next { s with engine := .halted, cause := .endOfProgram }

/-- R184, R107: an unassigned byte halts with `UNKNOWN_OPCODE`, one `Diag`, `ip` at the byte. -/
def Obligations.UnknownOpcodeHalts : Prop :=
  ∀ s : State, s.engine = .running → s.ip < s.plen →
    (∀ m, s.opmap.byteOf m ≠ Memory.read s.prog s.ip) →
    step s = .next { s with
      engine := .halted, cause := .unknownOpcode, events := s.events ++ [.diag 4 s.ip] }

/-- R103, R104: an operand that reaches beyond the program halts with `DECODE_PAST_END`, whatever the
instruction, before anything else about it is looked at. -/
def Obligations.TruncatedOperandHalts : Prop :=
  ∀ (m : Mnemonic) (s : State), TruncatedAt m s →
    step s = .next { s with
      engine := .halted, cause := .decodePastEnd, events := s.events ++ [.diag 3 s.ip] }

/-- R188, R230: there is a next state only while Running; from Halted there is none (the model's fault
`halted`, log 14). -/
def Obligations.NoStepFromHalted : Prop :=
  (∀ s : State, s.engine = .halted → step s = .fault .halted) ∧
  ∀ s t : State, step s = .next t → s.engine = .running

/-- R226: a fatal error sets `STATE` and `CAUSE` and emits `Diag(C, ip0)`; nothing else changes. R221, R222:
the code number of each cause and of each warning. -/
def Obligations.RaiseChangesOnlyStatus : Prop :=
  (∀ (c : Cause) (s : State), raise c s =
    { s with engine := .halted, cause := c, events := s.events ++ [.diag c.code s.ip] }) ∧
  Cause.none.code = 0 ∧ Cause.haltInsn.code = 1 ∧ Cause.endOfProgram.code = 2 ∧
  Cause.decodePastEnd.code = 3 ∧ Cause.unknownOpcode.code = 4 ∧ Cause.divisionByZero.code = 5 ∧
  Cause.invalidGlobalIndex.code = 6 ∧ Cause.invalidVectorHandle.code = 7 ∧
  Cause.vectorSizeMismatch.code = 8 ∧ Cause.outOfMemory.code = 9 ∧ Cause.tooManyVectors.code = 10 ∧
  Cause.insufficientOperands.code = 11 ∧ Cause.stackOverflow.code = 12 ∧ Cause.stackUnderflow.code = 13 ∧
  Cause.invalidVectorSize.code = 14 ∧ Cause.invalidJumpTarget.code = 15 ∧
  Warning.malformedInput.code = 16 ∧ Warning.persistWriteFailure.code = 17 ∧
  Warning.persistReadFailure.code = 18 ∧ Warning.persistMalformed.code = 19

/-! ## The whole machine -/

/-- Every step keeps the invariant of reachable states: configuration, `CAUSE` against `STATE`, the
canonical program store, `0 <= ip <= plen <= PROG_CAP`, the stack bound, the heap invariants of R34, and the
INPUT wait only at an INPUT with room. No step ends inside the wait, so each step of a run starts outside it and
an INPUT gives its prompt once (00_scope.md R9, 44_io.md R195; the wait's flag is the model's, log 7). -/
def Obligations.StepKeepsInvariant : Prop :=
  ∀ s t : State, Inv s → step s = .next t → Inv t ∧ t.prompted = false

/-- The invariant holds right after reset, at every legal configuration, outside the INPUT wait. -/
def Obligations.InvariantAtReset : Prop :=
  (∀ c : Config, c.WellFormed = true →
    Inv (State.resetWith c) ∧ (State.resetWith c).prompted = false) ∧ Inv State.reset

/-- Resetting and loading any accepted program gives a state with the invariant, outside the INPUT wait, also
where the reset came inside one (boot beside the step: log 19). -/
def Obligations.BootKeepsInvariant : Prop :=
  ∀ (s t : State) (b : List Byte), Inv s → boot b s = some t → Inv t ∧ t.prompted = false

/-- R77, R24: no step changes a byte of the program store or its length; nor the configuration. -/
def Obligations.ProgramStoreIsImmutable : Prop :=
  ∀ s t : State, step s = .next t →
    (∀ a, Memory.read t.prog a = Memory.read s.prog a) ∧ t.prog = s.prog ∧ t.plen = s.plen ∧
      t.config = s.config

/-- R226 over all instructions: an instruction that halts is HALT with exactly its own effect, or took a
fatal error and left everything else as it was. -/
def Obligations.FatalErrorsArePrecise : Prop :=
  ∀ (i : Instr) (s t : State), s.engine = .running → exec i s = .next t → t.engine = .halted →
    (i = .halt ∧ t = { s with engine := .halted, cause := .haltInsn, ip := s.ip + 1 }) ∨
      ∃ c : Cause, 3 ≤ c.code ∧ t =
        { s with engine := .halted, cause := c, events := s.events ++ [.diag c.code s.ip] }

/-- R223: an instruction halts only with a cause of its row, and while it goes on gives only warnings of its
row, at its own address; the unassigned byte and the end of the program have their own causes. -/
def Obligations.DiagnosticsOfEachInstruction : Prop :=
  ∀ s t : State, Inv s → step s = .next t →
    (t.engine = .halted →
      (s.ip = s.plen ∧ t.cause = .endOfProgram) ∨
      (s.ip < s.plen ∧ (∀ m, s.opmap.byteOf m ≠ Memory.read s.prog s.ip) ∧ t.cause = .unknownOpcode) ∨
      ∃ m, s.ip < s.plen ∧ s.opmap.byteOf m = Memory.read s.prog s.ip ∧ t.cause ∈ haltCauses m) ∧
    (t.engine = .running → ∀ new, t.events = s.events ++ new → ∀ code a, .diag code a ∈ new →
      a = s.ip ∧ ∃ m, s.opmap.byteOf m = Memory.read s.prog s.ip ∧ ∃ w ∈ warningsOf m, code = w.code)

/-- R35: a step that does not execute HLOAD never decreases `hp` or `vc`, and changes no allocated cell and
no live descriptor. -/
def Obligations.HeapGrowsMonotonically : Prop :=
  ∀ s t : State, Inv s → step s = .next t → (∀ n, decode s.opmap (fetchWindow s) ≠ .insn .hload n) →
    s.vh.hp ≤ t.vh.hp ∧ s.vh.vc ≤ t.vh.vc ∧
    (∀ j, j < s.vh.hp → t.vh.cells[j]? = s.vh.cells[j]?) ∧
    ∀ k, k < s.vh.vc → t.vh.table[k]? = s.vh.table[k]?

/-- R34 (d): a step that does not execute HLOAD keeps the canonical bump form of the heap. -/
def Obligations.AllocationKeepsBumpForm : Prop :=
  ∀ s t : State, Inv s → step s = .next t → (∀ n, decode s.opmap (fetchWindow s) ≠ .insn .hload n) →
    bumpForm s.vh = true → bumpForm t.vh = true

/-- R80: the output history only grows at its end; a step adds at most three events. -/
def Obligations.OutputHistoryOnlyGrows : Prop :=
  ∀ s t : State, step s = .next t → ∃ new, t.events = s.events ++ new ∧ new.length ≤ 3

/-- R87, R206: only HSAVE writes the persistence slot. -/
def Obligations.OnlyHsaveWritesSlot : Prop :=
  ∀ s t : State, step s = .next t → (∀ n, decode s.opmap (fetchWindow s) ≠ .insn .hsave n) →
    t.slot = s.slot

/-! ## Instructions: result, errors, frame

The next state is written out as the old one with the changed fields, so every other register, cell, byte
and event is as before. -/

/-- R135. PUSH. -/
def Obligations.PushPushesLiteral : Prop :=
  ∀ (lit : F64) (s : State),
    (s.stack.length < s.stackCap →
      exec (.push lit) s = .next { s with stack := lit :: s.stack, ip := s.ip + 9 }) ∧
    (s.stack.length = s.stackCap → exec (.push lit) s = .next (raise .stackOverflow s)) ∧
    (TruncatedAt .push s → step s = .next (raise .decodePastEnd s)) ∧
    encode .default (.push lit) = 0x01 :: f64Le lit

/-- R136, R137, R138, R145. ADD, SUB, MUL: the operands are replaced by the rounded result, first-pushed on
the left, and nothing else of the spec's state changes. The model's choices: the bits of a NaN result are
the free value `nanDraw s` (log 5), and the counter `draws` counts it (log 12). -/
def Obligations.AddSubMulReplaceOperands : Prop :=
  (∀ (s : State) (a b : F64) (rest : List F64), s.stack = b :: a :: rest → s.stack.length ≤ s.stackCap →
    exec .add s = .next { s with
      stack := fadd (nanDraw s) a b :: rest, ip := s.ip + 1, draws := s.draws + 1 } ∧
    exec .sub s = .next { s with
      stack := fsub (nanDraw s) a b :: rest, ip := s.ip + 1, draws := s.draws + 1 } ∧
    exec .mul s = .next { s with
      stack := fmul (nanDraw s) a b :: rest, ip := s.ip + 1, draws := s.draws + 1 }) ∧
  (∀ s : State, s.stack.length < 2 →
    exec .add s = .next (raise .stackUnderflow s) ∧ exec .sub s = .next (raise .stackUnderflow s) ∧
    exec .mul s = .next (raise .stackUnderflow s)) ∧
  encode .default .add = [0x02] ∧ encode .default .sub = [0x03] ∧ encode .default .mul = [0x04]

/-- R139. DIV: underflow first, then the exact-zero test of the divisor, then the division; nothing else of
the spec's state changes. The model's choices: the bits of a NaN result are the free value `nanDraw s` (log 5),
and the counter `draws` counts it (log 12). -/
def Obligations.DivDividesOrHalts : Prop :=
  (∀ (s : State) (a b : F64) (rest : List F64), s.stack = b :: a :: rest → s.stack.length ≤ s.stackCap →
    (fisZero b = false → exec .div s = .next { s with
      stack := fdiv (nanDraw s) a b :: rest, ip := s.ip + 1, draws := s.draws + 1 }) ∧
    (fisZero b = true → exec .div s = .next (raise .divisionByZero s))) ∧
  (∀ s : State, s.stack.length < 2 → exec .div s = .next (raise .stackUnderflow s)) ∧
  encode .default .div = [0x05]

/-- R140. RELU: a value greater than zero stays, every other one, NaN and `-0.0` included, becomes `+0.0`; the
sign bit of the result is never set. -/
def Obligations.ReluRectifies : Prop :=
  (∀ (s : State) (x : F64) (rest : List F64), s.stack = x :: rest → s.stack.length ≤ s.stackCap →
    exec .relu s = .next { s with
      stack := (if fgt x 0 then x else 0) :: rest, ip := s.ip + 1 }) ∧
  (∀ x : F64, (if fgt x 0 then x else (0 : F64)).msb = false) ∧
  (∀ s : State, s.stack = [] → exec .relu s = .next (raise .stackUnderflow s)) ∧
  encode .default .relu = [0x0B]

/-- R141, R142. GT and LT deliver `1.0` or `+0.0`. -/
def Obligations.GtLtCompare : Prop :=
  (∀ (s : State) (a b : F64) (rest : List F64), s.stack = b :: a :: rest → s.stack.length ≤ s.stackCap →
    exec .gt s = .next { s with
      stack := (if fgt a b then 0x3FF0000000000000 else 0) :: rest, ip := s.ip + 1 } ∧
    exec .lt s = .next { s with
      stack := (if flt a b then 0x3FF0000000000000 else 0) :: rest, ip := s.ip + 1 }) ∧
  (∀ s : State, s.stack.length < 2 →
    exec .gt s = .next (raise .stackUnderflow s) ∧ exec .lt s = .next (raise .stackUnderflow s)) ∧
  encode .default .gt = [0x0C] ∧ encode .default .lt = [0x0D]

/-- R143. EQ: the rounded difference against `EPS`, strictly; whichever NaN an invalid difference gives, the
result is the same, and it is `+0.0`. -/
def Obligations.EqComparesWithTolerance : Prop :=
  (∀ (s : State) (a b nan : F64) (rest : List F64), s.stack = b :: a :: rest →
    s.stack.length ≤ s.stackCap → isNaN nan = true →
    exec .eq s = .next { s with
      stack := (if flt (fabs (fsub nan a b)) 0x3E112E0BE826D695 then 0x3FF0000000000000 else 0) :: rest,
      ip := s.ip + 1 }) ∧
  (∀ a b nan : F64, isNaN nan = true →
    (isNaN a = true ∨ isNaN b = true ∨ (isInf a = true ∧ a = b)) →
    flt (fabs (fsub nan a b)) 0x3E112E0BE826D695 = false) ∧
  (∀ s : State, s.stack.length < 2 → exec .eq s = .next (raise .stackUnderflow s)) ∧
  encode .default .eq = [0x0E]

/-- R150. GSTORE: decode, index, stack are checked in this order. -/
def Obligations.GstoreStoresGlobal : Prop :=
  ∀ (imm : I32) (s : State),
    (0 ≤ imm.toInt → imm.toInt < s.globalCap → ∀ (v : F64) (rest : List F64), s.stack = v :: rest →
      exec (.gstore imm) s = .next { s with
        stack := rest, globals := s.globals.set imm.toInt.toNat v, ip := s.ip + 5 }) ∧
    (imm.toInt < 0 ∨ s.globalCap ≤ imm.toInt →
      exec (.gstore imm) s = .next (raise .invalidGlobalIndex s)) ∧
    (0 ≤ imm.toInt → imm.toInt < s.globalCap → s.stack = [] →
      exec (.gstore imm) s = .next (raise .stackUnderflow s)) ∧
    (TruncatedAt .gstore s → step s = .next (raise .decodePastEnd s)) ∧
    encode .default (.gstore imm) = 0x07 :: i32Le imm

/-- R151. GLOAD: decode, index, stack are checked in this order. -/
def Obligations.GloadPushesGlobal : Prop :=
  ∀ (imm : I32) (s : State),
    (0 ≤ imm.toInt → imm.toInt < s.globalCap → s.stack.length < s.stackCap →
      ∃ v, s.globals[imm.toInt.toNat]? = some v ∧
        exec (.gload imm) s = .next { s with stack := v :: s.stack, ip := s.ip + 5 }) ∧
    (imm.toInt < 0 ∨ s.globalCap ≤ imm.toInt →
      exec (.gload imm) s = .next (raise .invalidGlobalIndex s)) ∧
    (0 ≤ imm.toInt → imm.toInt < s.globalCap → s.stack.length = s.stackCap →
      exec (.gload imm) s = .next (raise .stackOverflow s)) ∧
    (TruncatedAt .gload s → step s = .next (raise .decodePastEnd s)) ∧
    encode .default (.gload imm) = 0x08 :: i32Le imm

/-- R31: after a completed GSTORE, the global named by its index reads as the stored value and every other
global as before. -/
def Obligations.GlobalReadsAfterStore : Prop :=
  ∀ (imm : I32) (s t : State), s.engine = .running → exec (.gstore imm) s = .next t → t.engine = .running →
    t.globalCap = s.globalCap ∧ (∃ v, s.stack.head? = some v ∧ gload imm.toInt.toNat t = v) ∧
    ∀ j, j ≠ imm.toInt.toNat → gload j t = gload j s

/-- R163. MKVEC: the four checks in order, and the allocation: cells from `hp` on hold the popped values in
stack order, the descriptor and the counts are as the rule says, every other cell is unchanged. -/
def Obligations.MkvecAllocatesVector : Prop :=
  ∀ (imm : I32) (s : State),
    (imm.toInt ≤ 0 → exec (.mkvec imm) s = .next (raise .invalidVectorSize s)) ∧
    (0 < imm.toInt → s.heapCap < s.vh.hp + imm.toInt.toNat →
      exec (.mkvec imm) s = .next (raise .outOfMemory s)) ∧
    (0 < imm.toInt → s.vh.hp + imm.toInt.toNat ≤ s.heapCap → s.vh.vc = s.vecCap →
      exec (.mkvec imm) s = .next (raise .tooManyVectors s)) ∧
    (0 < imm.toInt → s.vh.hp + imm.toInt.toNat ≤ s.heapCap → s.vh.vc < s.vecCap →
      s.stack.length < imm.toInt.toNat →
      exec (.mkvec imm) s = .next (raise .insufficientOperands s)) ∧
    (∀ n : Nat, imm.toInt = n → 0 < n → s.vh.hp + n ≤ s.heapCap → s.vh.vc < s.vecCap →
      n ≤ s.stack.length →
      ∃ v : VectorHeap,
        exec (.mkvec imm) s = .next { s with
          stack := f64OfNat s.vh.vc :: s.stack.drop n, vh := v, ip := s.ip + 5 } ∧
        v.hp = s.vh.hp + n ∧ v.vc = s.vh.vc + 1 ∧
        v.table = s.vh.table.set s.vh.vc { size := imm, base := BitVec.ofNat 32 s.vh.hp } ∧
        (∀ j, j < n → v.cells[s.vh.hp + j]? = s.stack[n - 1 - j]?) ∧
        ∀ j, j < s.vh.hp ∨ s.vh.hp + n ≤ j → v.cells[j]? = s.vh.cells[j]?) ∧
    (TruncatedAt .mkvec s → step s = .next (raise .decodePastEnd s)) ∧
    encode .default (.mkvec imm) = 0x09 :: i32Le imm

/-- R164, R165. DOT: handle validity before size equality; the sum starts at `+0.0` and runs in ascending
index order, each product and each sum rounded; heap and descriptor table unchanged. The model's choices: one
NaN `nanDraw s` is drawn for all operations of the step (log 5), and the counter `draws` counts it (log 12). -/
def Obligations.DotComputesDotProduct : Prop :=
  (∀ (s : State) (ha hb : F64) (rest : List F64) (ia ib : Nat) (da db : Descriptor), Inv s →
    s.stack = hb :: ha :: rest →
    handleIndex ha s.vh.vc = some ia → handleIndex hb s.vh.vc = some ib →
    s.vh.table[ia]? = some da → s.vh.table[ib]? = some db →
    (da.size = db.size → exec .dot s = .next { s with
      stack := (List.range da.size.toNat).foldl
          (fun acc j => fadd (nanDraw s) acc (fmul (nanDraw s)
            (s.vh.cells.getD (da.base.toNat + j) 0) (s.vh.cells.getD (db.base.toNat + j) 0))) 0 :: rest,
      ip := s.ip + 1, draws := s.draws + 1 }) ∧
    (da.size ≠ db.size → exec .dot s = .next (raise .vectorSizeMismatch s))) ∧
  (∀ (s : State) (ha hb : F64) (rest : List F64), s.stack = hb :: ha :: rest →
    handleIndex ha s.vh.vc = none ∨ handleIndex hb s.vh.vc = none →
    exec .dot s = .next (raise .invalidVectorHandle s)) ∧
  (∀ s : State, s.stack.length < 2 → exec .dot s = .next (raise .stackUnderflow s)) ∧
  encode .default .dot = [0x0A]

/-- 42_vector.md R164: swapping two vectors of one size gives the same bits (with the same NaN drawn). -/
def Obligations.DotIsCommutative : Prop :=
  ∀ (nan : F64) (xs ys : List F64), dotEngine nan xs ys = dotEngine nan ys xs

/-- R181. JMPF: the condition is popped either way; both zeros jump, everything else falls through, also
past an offset that would be out of range. -/
def Obligations.JmpfJumpsOnZero : Prop :=
  ∀ (imm : I32) (s : State),
    (∀ (c : F64) (rest : List F64), s.stack = c :: rest →
      (fisZero c = true → ∀ t : Nat, (s.ip : Int) + 5 + imm.toInt = t → t ≤ s.plen →
        exec (.jmpf imm) s = .next { s with stack := rest, ip := t }) ∧
      (fisZero c = true → (s.ip : Int) + 5 + imm.toInt < 0 ∨ s.plen < (s.ip : Int) + 5 + imm.toInt →
        exec (.jmpf imm) s = .next (raise .invalidJumpTarget s)) ∧
      (fisZero c = false → exec (.jmpf imm) s = .next { s with stack := rest, ip := s.ip + 5 })) ∧
    (s.stack = [] → exec (.jmpf imm) s = .next (raise .stackUnderflow s)) ∧
    (TruncatedAt .jmpf s → step s = .next (raise .decodePastEnd s)) ∧
    encode .default (.jmpf imm) = 0x0F :: i32Le imm

/-- R182. JMP: the target is computed in unbounded integers; the stack is not touched. -/
def Obligations.JmpJumps : Prop :=
  ∀ (imm : I32) (s : State),
    (∀ t : Nat, (s.ip : Int) + 5 + imm.toInt = t → t ≤ s.plen →
      exec (.jmp imm) s = .next { s with ip := t }) ∧
    ((s.ip : Int) + 5 + imm.toInt < 0 ∨ s.plen < (s.ip : Int) + 5 + imm.toInt →
      exec (.jmp imm) s = .next (raise .invalidJumpTarget s)) ∧
    (TruncatedAt .jmp s → step s = .next (raise .decodePastEnd s)) ∧
    encode .default (.jmp imm) = 0x10 :: i32Le imm

/-- R183. HALT: a clean halt in every state, no `Diag`. -/
def Obligations.HaltHaltsCleanly : Prop :=
  (∀ s : State, exec .halt s = .next { s with
    engine := .halted, cause := .haltInsn, ip := s.ip + 1 }) ∧
  encode .default .halt = [0x00]

/-- R190. PRINT: one `Print` event with all 64 bits, and the operand is consumed. -/
def Obligations.PrintEmitsAndPops : Prop :=
  (∀ (s : State) (v : F64) (rest : List F64), s.stack = v :: rest →
    exec .print s = .next { s with
      stack := rest, events := s.events ++ [.print v], ip := s.ip + 1 }) ∧
  (∀ s : State, s.stack = [] → exec .print s = .next (raise .stackUnderflow s)) ∧
  encode .default .print = [0x06]

/-- R192, R86. RAND: the overflow check comes before the request; otherwise one request, and an admissible
value is pushed: the host's ready answer if there is one, else a free value. Every admissible value can be the
answer. The answers and the counter of draws are the model's (logs 6, 11, 12). -/
def Obligations.RandPushesAdmissibleValue : Prop :=
  (∀ s : State, s.stack.length < s.stackCap → ∃ (v : F64) (h : HostAnswers),
    exec .rand s = .next { s with
      stack := v :: s.stack, events := s.events ++ [.randReq], ip := s.ip + 1, host := h,
      draws := s.draws + 1 } ∧
    v.toNat ≤ 0x3FEFFFFFFFFFFFFF ∧
    (∀ w rest, s.host.randoms = w :: rest → h = { s.host with randoms := rest } ∧
      (w.toNat ≤ 0x3FEFFFFFFFFFFFFF → v = w)) ∧
    (s.host.randoms = [] → h = s.host)) ∧
  (∀ s : State, s.stack.length = s.stackCap → exec .rand s = .next (raise .stackOverflow s)) ∧
  encode .default .rand = [0x11]

/-- 44_io.md R194. INPUT, where an answer is ready or the host answers: one step, which gives the prompt
(unless the engine was already inside this INPUT's wait), the request, and the value or the sentinel with its
warning, and ends outside the wait; a ready answer is the one used. The overflow check comes before the
prompt. The answers, the counter of draws and the wait's flag are the model's (logs 7, 8, 11, 12). -/
def Obligations.InputPushesAnswer : Prop :=
  (∀ s : State, s.stack.length < s.stackCap → (s.host.lines ≠ [] ∨ s.host.silent = false) →
    ∃ (a : InputAnswer) (h : HostAnswers),
    (∀ a' rest, s.host.lines = a' :: rest → a = a' ∧ h = { s.host with lines := rest }) ∧
    (s.host.lines = [] → h = s.host) ∧
    ((∃ v, a = .value v ∧ exec .input s = .next { s with
      stack := v :: s.stack, ip := s.ip + 1, prompted := false, host := h, draws := s.draws + 1,
      events := s.events ++ (if s.prompted then [] else [.prompt]) ++ [.inputReq] }) ∨
    (a = .parseFail ∧ exec .input s = .next { s with
      stack := 0 :: s.stack, ip := s.ip + 1, prompted := false, host := h, draws := s.draws + 1,
      events := s.events ++ (if s.prompted then [] else [.prompt]) ++ [.inputReq, .diag 16 s.ip] }))) ∧
  (∀ s : State, s.stack.length = s.stackCap → exec .input s = .next (raise .stackOverflow s)) ∧
  encode .default .input = [0x12]

/-- 44_io.md R195, 10_state.md R38: an INPUT with room has no successor state exactly when the host never
answers (the model's fault `inputWait`, logs 7 and 8). Inside the wait (`awaitLine`, log 7) only the prompt
has been given, the status registers read as before, the invariant holds, entering the wait again changes
nothing, and INPUT goes on from it to the very outcome it has from the state before. -/
def Obligations.InputWaitsForAnswer : Prop :=
  (∀ s : State, exec .input s = .fault .inputWait ↔
    s.stack.length < s.stackCap ∧ s.host.lines = [] ∧ s.host.silent = true) ∧
  (∀ s : State, s.prompted = false →
    awaitLine s = { s with prompted := true, events := s.events ++ [.prompt] }) ∧
  ∀ s : State, awaitLine (awaitLine s) = awaitLine s ∧ statusPort (awaitLine s) = statusPort s ∧
    (s.stack.length < s.stackCap → exec .input (awaitLine s) = exec .input s) ∧
    (Inv s → s.engine = .running → decode s.opmap (fetchWindow s) = .insn .input 1 →
      s.stack.length < s.stackCap → Inv (awaitLine s))

/-- R205. HSAVE, whatever the host answers: the image is sent, the slot holds it after `Ok` and whatever the
answer says after `Fail`, which is reported; a ready answer is the one used. The answers and the counter of
draws are the model's (logs 9, 11, 12). -/
def Obligations.HsaveWritesImage : Prop :=
  (∀ s : State, ∃ (a : WriteAnswer) (h : HostAnswers),
    (∀ a' rest, s.host.writes = a' :: rest → a = a' ∧ h = { s.host with writes := rest }) ∧
    (s.host.writes = [] → h = s.host) ∧
    ((a = .ok ∧ exec .hsave s = .next { s with
      slot := some (encodeImage s.vh), events := s.events ++ [.slotWrite (encodeImage s.vh)],
      ip := s.ip + 1, host := h, draws := s.draws + 1 }) ∨
    ∃ after, a = .fail after ∧ exec .hsave s = .next { s with
      slot := after, events := s.events ++ [.slotWrite (encodeImage s.vh), .diag 17 s.ip],
      ip := s.ip + 1, host := h, draws := s.draws + 1 })) ∧
  encode .default .hsave = [0x13]

/-- R206. HLOAD, whatever the host answers: all or nothing, each failure reported; an absent slot always
fails; a ready answer is the one used. The answers and the counter of draws are the model's (logs 10 to 12). -/
def Obligations.HloadReplacesHeapOrNothing : Prop :=
  (∀ s : State, ∃ (a : ReadAnswer) (h : HostAnswers),
    (∀ a' rest, s.host.reads = a' :: rest → a = a' ∧ h = { s.host with reads := rest }) ∧
    (s.host.reads = [] → h = s.host) ∧
    (((a = .fail ∨ s.slot = none) ∧ exec .hload s = .next { s with
        events := s.events ++ [.slotRead, .diag 18 s.ip], ip := s.ip + 1, host := h,
        draws := s.draws + 1 }) ∨
    (∃ b, a = .deliver ∧ s.slot = some b ∧ decodeImage s.heapCap s.vecCap b = none ∧
      exec .hload s = .next { s with
        events := s.events ++ [.slotRead, .diag 19 s.ip], ip := s.ip + 1, host := h,
        draws := s.draws + 1 }) ∨
    ∃ b v, a = .deliver ∧ s.slot = some b ∧ decodeImage s.heapCap s.vecCap b = some v ∧
      exec .hload s = .next { s with
        vh := v, events := s.events ++ [.slotRead], ip := s.ip + 1, host := h, draws := s.draws + 1 })) ∧
  encode .default .hload = [0x14]

/-! ## The image -/

/-- R201, R202: the length of every image, and where each field stands in it. -/
def Obligations.ImageLayout : Prop :=
  ∀ v : VectorHeap,
    (encodeImage v).length = 8 + 8 * v.cells.length + 8 * v.table.length ∧
    (encodeImage v).take 4 = i32Le (BitVec.ofNat 32 v.hp) ∧
    ((encodeImage v).drop 4).take 4 = i32Le (BitVec.ofNat 32 v.vc) ∧
    (∀ j x, v.cells[j]? = some x → ((encodeImage v).drop (8 + 8 * j)).take 8 = f64Le x) ∧
    ∀ i d, v.table[i]? = some d →
      ((encodeImage v).drop (8 + 8 * v.cells.length + 8 * i)).take 4 = i32Le d.size ∧
      ((encodeImage v).drop (8 + 8 * v.cells.length + 8 * i + 4)).take 4 = i32Le d.base

/-- 45_persist.md R204: for every heap that meets the invariants, decoding its image gives it back; hence
(R203) no two such heaps of the same capacities have the same image. -/
def Obligations.DecodeImageInvertsEncodeImage : Prop :=
  ∀ v : VectorHeap, heapOk v = true → v.cells.length ≤ 2147483647 → v.table.length ≤ 2147483647 →
    decodeImage v.cells.length v.table.length (encodeImage v) = some v

/-- 45_persist.md R204: whatever bytes are accepted, the heap they give has the capacities asked for, meets the
invariants, and has those very bytes as its image, so nothing of the bytes was dropped or changed. -/
def Obligations.AcceptedImagesAreFaithful : Prop :=
  ∀ (heapCap vecCap : Nat) (b : List Byte) (v : VectorHeap), decodeImage heapCap vecCap b = some v →
    v.cells.length = heapCap ∧ v.table.length = vecCap ∧ heapOk v = true ∧ encodeImage v = b

/-- 45_persist.md R204: the bytes are malformed exactly when one of the four checks fails. -/
def Obligations.MalformedImagesAreRejected : Prop :=
  ∀ (heapCap vecCap : Nat) (b : List Byte), decodeImage heapCap vecCap b = none ↔
    b.length ≠ 8 + 8 * heapCap + 8 * vecCap ∨
    ¬ (0 ≤ (leI32 (b.take 4)).toInt ∧ (leI32 (b.take 4)).toInt ≤ heapCap) ∨
    ¬ (0 ≤ (leI32 ((b.drop 4).take 4)).toInt ∧ (leI32 ((b.drop 4).take 4)).toInt ≤ vecCap) ∨
    ∃ i : Nat, i < (leI32 ((b.drop 4).take 4)).toInt ∧
      ((leI32 ((b.drop (8 + 8 * heapCap + 8 * i)).take 4)).toInt < 1 ∨
       (leI32 ((b.drop (8 + 8 * heapCap + 8 * i + 4)).take 4)).toInt < 0 ∨
       (leI32 (b.take 4)).toInt <
         (leI32 ((b.drop (8 + 8 * heapCap + 8 * i + 4)).take 4)).toInt +
         (leI32 ((b.drop (8 + 8 * heapCap + 8 * i)).take 4)).toInt)

/-- R207: what an HSAVE answered `Ok` saved, a later HLOAD that is answered with the slot's bytes restores bit
for bit, whatever the heap has become in between. -/
def Obligations.SaveThenLoadRestoresHeap : Prop :=
  ∀ s s' u : State, Inv s → (askWrite s).1 = .ok → exec .hsave s = .next s' →
    u.slot = s'.slot → u.config = s.config → (askRead u).1 = .deliver →
    ∃ u', exec .hload u = .next u' ∧ u'.vh = s.vh ∧ u'.engine = u.engine ∧ u'.ip = u.ip + 1

/-! ## Numbers

`scaled x` is the value of a finite `x` in units of 2^-1074; every binary64 value is an integer there. -/

/-- R131, addition: for finite operands the result is not a NaN; it is an infinity, of the sum's sign, exactly
when the exact sum is at least half an ulp above the largest finite value; otherwise no binary64 value is
nearer to the exact sum, and if another is as near the result is the one with an even significand.
Subtraction is the addition of the operand with its sign flipped: of every pattern the sign bit alone changes,
and a finite value is negated. -/
def Obligations.FaddFsubAreCorrectlyRounded : Prop :=
  (∀ nan a b : F64, isFinite a = true → isFinite b = true →
    let sum := scaled a + scaled b
    let r := fadd nan a b
    isNaN r = false ∧
    (isInf r = true ↔ 0x3FFFFFFFFFFFFF * 2 ^ (970 + 1074) ≤ |sum|) ∧
    (isInf r = true → r = infOf (decide (sum < 0))) ∧
    (isFinite r = true → ∀ x : F64, isFinite x = true →
      |scaled r - sum| ≤ |scaled x - sum| ∧
      (scaled x ≠ scaled r → |scaled r - sum| = |scaled x - sum| → r.toNat % 2 = 0))) ∧
  (∀ b : F64, (fneg b).msb = !b.msb ∧ expField (fneg b) = expField b ∧ fracField (fneg b) = fracField b ∧
    (isFinite b = true → isFinite (fneg b) = true ∧ scaled (fneg b) = -scaled b)) ∧
  ∀ nan a b : F64, fsub nan a b = fadd nan a (fneg b)

/-- R131, multiplication of finite operands, as `FaddFsubAreCorrectlyRounded` has it for addition. The exact
product is `scaled a * scaled b` in units of 2^-2148. -/
def Obligations.FmulIsCorrectlyRounded : Prop :=
  ∀ nan a b : F64, isFinite a = true → isFinite b = true →
    let prod := scaled a * scaled b
    let r := fmul nan a b
    isNaN r = false ∧ r.msb = (a.msb != b.msb) ∧
    (isInf r = true ↔ 0x3FFFFFFFFFFFFF * 2 ^ (970 + 1074) * 2 ^ 1074 ≤ |prod|) ∧
    (isFinite r = true → ∀ x : F64, isFinite x = true →
      |scaled r * 2 ^ 1074 - prod| ≤ |scaled x * 2 ^ 1074 - prod| ∧
      (scaled x ≠ scaled r → |scaled r * 2 ^ 1074 - prod| = |scaled x * 2 ^ 1074 - prod| →
        r.toNat % 2 = 0))

/-- R131, division of finite operands by one that is not zero, as `FaddFsubAreCorrectlyRounded` has it for
addition; distances are multiplied by the divisor. -/
def Obligations.FdivIsCorrectlyRounded : Prop :=
  ∀ nan a b : F64, isFinite a = true → isFinite b = true → fisZero b = false →
    let r := fdiv nan a b
    isNaN r = false ∧ r.msb = (a.msb != b.msb) ∧
    (isInf r = true ↔ 0x3FFFFFFFFFFFFF * 2 ^ (970 + 1074) * |scaled b| ≤ |scaled a| * 2 ^ 1074) ∧
    (isFinite r = true → ∀ x : F64, isFinite x = true →
      |scaled r * scaled b - scaled a * 2 ^ 1074| ≤ |scaled x * scaled b - scaled a * 2 ^ 1074| ∧
      (scaled x ≠ scaled r →
        |scaled r * scaled b - scaled a * 2 ^ 1074| = |scaled x * scaled b - scaled a * 2 ^ 1074| →
        r.toNat % 2 = 0))

/-- R134, R131: a NaN that an operation returns is the NaN drawn for it and never an operand's, and the NaN that
is drawn (log 5) is quiet whatever the draw; an operation returns a NaN exactly when it is invalid or has a NaN
operand. -/
def Obligations.NanExactlyOnInvalidOperation : Prop :=
  (∀ s : State, isQuietNaN (nanDraw s) = true) ∧
  (∀ nan a b : F64,
    (isNaN (fadd nan a b) = true → fadd nan a b = nan) ∧
    (isNaN (fsub nan a b) = true → fsub nan a b = nan) ∧
    (isNaN (fmul nan a b) = true → fmul nan a b = nan) ∧
    (isNaN (fdiv nan a b) = true → fdiv nan a b = nan)) ∧
  ∀ nan a b : F64, isNaN nan = true →
    (isNaN (fadd nan a b) = true ↔ isNaN a = true ∨ isNaN b = true ∨
      (isInf a = true ∧ isInf b = true ∧ a.msb ≠ b.msb)) ∧
    (isNaN (fsub nan a b) = true ↔ isNaN a = true ∨ isNaN b = true ∨
      (isInf a = true ∧ isInf b = true ∧ a.msb = b.msb)) ∧
    (isNaN (fmul nan a b) = true ↔ isNaN a = true ∨ isNaN b = true ∨
      (isInf a = true ∧ fisZero b = true) ∨ (fisZero a = true ∧ isInf b = true)) ∧
    (isNaN (fdiv nan a b) = true ↔ isNaN a = true ∨ isNaN b = true ∨
      (isInf a = true ∧ isInf b = true) ∨ (fisZero a = true ∧ fisZero b = true))

/-- R131: signed zeros and infinities. A finite value less itself is `+0.0`; the sum of two negative zeros is
`-0.0` and of zeros of both signs `+0.0`; the sign of a product or quotient that is not a NaN is the
exclusive-or of the signs; a finite value over an infinity is a zero; an infinity plus any value that is no NaN
and no infinity of the other sign is that infinity. -/
def Obligations.SignedZerosAndInfinities : Prop :=
  ∀ nan a b : F64,
    (isFinite a = true → fsub nan a a = posZero) ∧
    (fisZero a = true → fisZero b = true → fadd nan a b = zeroOf (a.msb && b.msb)) ∧
    (isNaN nan = true → isNaN (fmul nan a b) = false → (fmul nan a b).msb = (a.msb != b.msb)) ∧
    (isNaN nan = true → isNaN (fdiv nan a b) = false → (fdiv nan a b).msb = (a.msb != b.msb)) ∧
    (isInf a = true → isNaN b = false → fisZero b = false →
      fmul nan a b = infOf (a.msb != b.msb) ∧ fmul nan b a = infOf (a.msb != b.msb)) ∧
    (isFinite a = true → isInf b = true → fdiv nan a b = zeroOf (a.msb != b.msb)) ∧
    (isInf a = true → isFinite b = true → fdiv nan a b = infOf (a.msb != b.msb)) ∧
    (isInf a = true → isNaN b = false → (isInf b = true → b.msb = a.msb) →
      fadd nan a b = a ∧ fadd nan b a = a)

/-- R132: the comparisons: false on a NaN, by value on finite operands, infinities at the ends. -/
def Obligations.ComparisonsFollowValues : Prop :=
  ∀ a b : F64, fgt a b = flt b a ∧
    (isNaN a = true ∨ isNaN b = true → flt a b = false) ∧
    (isFinite a = true → isFinite b = true → flt a b = decide (scaled a < scaled b)) ∧
    (isFinite a = true → isInf b = true → flt a b = !b.msb) ∧
    (isInf a = true → isFinite b = true → flt a b = a.msb) ∧
    (isInf a = true → isInf b = true → flt a b = (a.msb && !b.msb))

/-- R133: `fis_zero` holds exactly of the two zeros, of no NaN and no subnormal; `fabs` clears the sign bit and
nothing else, and is the absolute value of a finite operand. -/
def Obligations.ZeroTestAndAbsoluteValue : Prop :=
  ∀ a : F64, (fisZero a = true ↔ a = 0 ∨ a = 0x8000000000000000) ∧
    (fisZero a = true ↔ isFinite a = true ∧ scaled a = 0) ∧
    (fabs a).msb = false ∧ expField (fabs a) = expField a ∧ fracField (fabs a) = fracField a ∧
    (isFinite a = true → scaled (fabs a) = |scaled a|)

/-- R161: the conversion of an integer below 2^53 is exact, and that of 0 is `+0.0`. -/
def Obligations.IntegerConversionIsExact : Prop :=
  (∀ n : Nat, n < 2 ^ 53 →
    isFinite (f64OfNat n) = true ∧ scaled (f64OfNat n) = n * 2 ^ 1074 ∧ (f64OfNat n).msb = false) ∧
  f64OfNat 0 = 0 ∧ f64OfNat 1 = 0x3FF0000000000000 ∧ f64OfNat 2 = 0x4000000000000000 ∧
  f64OfNat 3 = 0x4008000000000000

/-- R162, R41: a stack value denotes index `i` exactly when it is finite and equal to `i`, and `i` is below the
descriptor count; so the handle MKVEC pushes denotes the descriptor it made. -/
def Obligations.HandlesDenoteIndices : Prop :=
  (∀ (v : F64) (vc i : Nat), handleIndex v vc = some i ↔
    isFinite v = true ∧ scaled v = i * 2 ^ 1074 ∧ i < vc) ∧
  ∀ vc i : Nat, i < vc → vc ≤ 2147483647 → handleIndex (f64OfNat i) vc = some i

/-! ## Reset and load -/

/-- 70_reset_and_hazards.md R260 (with 10_state.md R40): what reset leaves, whatever state it comes in, the INPUT
wait included, at the capacities of the core: the program and the slot stay, everything else of the core takes
its reset value, no INPUT is under way, and the output history starts empty. That reset is a function beside
the step, and that it leaves the model's own fields `host` and `draws`, is the model's choice (log 19). -/
def Obligations.ResetLeavesResetState : Prop :=
  ∀ s : State,
    (assertReset s).engine = .running ∧ (assertReset s).cause = .none ∧ (assertReset s).ip = 0 ∧
    (assertReset s).sp = -1 ∧ (assertReset s).globals = List.replicate s.globalCap 0 ∧
    (assertReset s).vh.hp = 0 ∧ (assertReset s).vh.vc = 0 ∧
    (assertReset s).vh.cells = List.replicate s.heapCap 0 ∧
    (assertReset s).vh.table = List.replicate s.vecCap { size := 0, base := 0 } ∧
    (assertReset s).events = [] ∧ (assertReset s).prog = s.prog ∧ (assertReset s).plen = s.plen ∧
    (assertReset s).slot = s.slot ∧ (assertReset s).config = s.config ∧
    (assertReset s).prompted = false ∧ (assertReset s).host = s.host ∧ (assertReset s).draws = s.draws ∧
    State.reset.plen = 0

/-- R264: a program that is too long is refused and nothing is written; otherwise the program store holds
exactly the bytes presented, whatever it held before, and nothing else of the core changes. -/
def Obligations.LoadPortReplacesProgram : Prop :=
  ∀ (b : List Byte) (s : State),
    (s.progCap < b.length → loadProgram b s = none) ∧
    (b.length ≤ s.progCap → ∃ m : Memory, loadProgram b s = some { s with prog := m, plen := b.length } ∧
      Memory.wf m = true ∧ ∀ a, a < b.length → some (Memory.read m a) = b[a]?)

/-- R267, R221: a halted run ended cleanly exactly when its cause is HALT or the end of the program, and the
host's error status, `CAUSE >= 3`, says exactly the other case. -/
def Obligations.ErrorStatusIsUncleanEnd : Prop :=
  ∀ s : State, Inv s → s.engine = .halted → (errorStatus s = true ↔ endedCleanly s = false)

/-- The instruction of a table word, placed at the instruction pointer of a core with the default opcode map,
is what the next step executes (the placing stands for the load port, log 15). -/
def Obligations.PlacedWordIsExecuted : Prop :=
  ∀ (s : State) (nbits w : Nat) (i : Instr), s.opmap = .default → Memory.wf s.prog = true →
    decodeTableWord nbits w = some i →
    step (s.withFetchWord nbits w) = exec i (s.withFetchWord nbits w)
end

