-- ==== Sys2Proof/Laws/Codec.lean ====
section
/-! SUPPORT. The little-endian codecs and the parts of the image (20_memory.md R67, 45_persist.md R201). -/

namespace Sys2Proof

@[simp] theorem leBytes_length (n x : Nat) : (leBytes n x).length = n := by
  induction n generalizing x with
  | zero => rfl
  | succ n ih => simp [leBytes, ih]

/-- Reading back what was laid out keeps the low bytes. -/
theorem leNat_leBytes (n x : Nat) : leNat (leBytes n x) = x % 256 ^ n := by
  induction n generalizing x with
  | zero => simp [leBytes, leNat, Nat.mod_one]
  | succ n ih =>
    simp only [leBytes, leNat, ih, BitVec.toNat_ofNat]
    rw [show 2 ^ 8 = 256 from rfl, pow_succ' 256, Nat.mod_mul]

/-- Laying out what was read back gives the same bytes. -/
theorem leBytes_leNat (b : List Byte) : leBytes b.length (leNat b) = b := by
  induction b with
  | nil => rfl
  | cons v rest ih =>
    have hv := v.isLt
    simp only [List.length_cons, leBytes, leNat]
    congr 1
    · apply BitVec.eq_of_toNat_eq
      simp only [BitVec.toNat_ofNat]
      omega
    · rw [show (v.toNat + 256 * leNat rest) / 256 = leNat rest by omega, ih]

theorem leNat_lt (b : List Byte) : leNat b < 256 ^ b.length := by
  induction b with
  | nil => simp [leNat]
  | cons v rest ih =>
    have hv := v.isLt
    simp only [leNat, List.length_cons, pow_succ']
    omega

@[simp] theorem i32Le_length (v : I32) : (i32Le v).length = 4 := leBytes_length 4 _
@[simp] theorem f64Le_length (v : F64) : (f64Le v).length = 8 := leBytes_length 8 _

@[simp] theorem leI32_i32Le (v : I32) : leI32 (i32Le v) = v := by
  apply BitVec.eq_of_toNat_eq
  have := v.isLt
  simp only [leI32, i32Le, leNat_leBytes, BitVec.toNat_ofNat]
  omega

@[simp] theorem leF64_f64Le (v : F64) : leF64 (f64Le v) = v := by
  apply BitVec.eq_of_toNat_eq
  have := v.isLt
  simp only [leF64, f64Le, leNat_leBytes, BitVec.toNat_ofNat]
  omega

theorem i32Le_leI32 {b : List Byte} (h : b.length = 4) : i32Le (leI32 b) = b := by
  have hb := leNat_lt b
  rw [h] at hb
  have : (leI32 b).toNat = leNat b := by
    simp only [leI32, BitVec.toNat_ofNat]; omega
  rw [i32Le, this]
  simpa [h] using leBytes_leNat b

theorem f64Le_leF64 {b : List Byte} (h : b.length = 8) : f64Le (leF64 b) = b := by
  have hb := leNat_lt b
  rw [h] at hb
  have : (leF64 b).toNat = leNat b := by
    simp only [leF64, BitVec.toNat_ofNat]; omega
  rw [f64Le, this]
  simpa [h] using leBytes_leNat b

namespace Machine

@[simp] theorem descriptorLe_length (d : Descriptor) : (descriptorLe d).length = 8 := by simp [descriptorLe]

@[simp] theorem leDescriptor_descriptorLe (d : Descriptor) : leDescriptor (descriptorLe d) = d := by
  simp [leDescriptor, descriptorLe]

/-- Concatenated eight-byte fields have eight bytes each. -/
theorem flatMap8_length {α : Type} {f : α → List Byte} (hf : ∀ x, (f x).length = 8) (l : List α) :
    (l.flatMap f).length = 8 * l.length := by
  induction l with
  | nil => rfl
  | cons x l ih => simp only [List.flatMap_cons, List.length_append, hf, ih, List.length_cons]; omega

/-- Cutting concatenated eight-byte fields apart gives the fields back. -/
theorem groups8_flatMap {α : Type} {f : α → List Byte} (hf : ∀ x, (f x).length = 8) (l : List α)
    (rest : List Byte) : groups8 l.length (l.flatMap f ++ rest) = l.map f := by
  induction l with
  | nil => rfl
  | cons x l ih =>
    have h1 : (f x ++ (l.flatMap f ++ rest)).take 8 = f x := List.take_left' (hf x)
    have h2 : (f x ++ (l.flatMap f ++ rest)).drop 8 = l.flatMap f ++ rest := List.drop_left' (hf x)
    simp only [List.length_cons, List.flatMap_cons, List.append_assoc, groups8, h1, h2, ih, List.map_cons]

@[simp] theorem groups8_length (n : Nat) (b : List Byte) : (groups8 n b).length = n := by
  induction n generalizing b with
  | zero => rfl
  | succ n ih => simp [groups8, ih]

@[simp] theorem readImage_cells_length (hc vc : Nat) (b : List Byte) :
    (readImage hc vc b).cells.length = hc := by simp [readImage]

@[simp] theorem readImage_table_length (hc vc : Nat) (b : List Byte) :
    (readImage hc vc b).table.length = vc := by simp [readImage]

/-! ### Parts of an image -/

/-- The field at place `j` of concatenated eight-byte fields. -/
theorem flatMap8_drop_take {α : Type} {f : α → List Byte} (hf : ∀ x, (f x).length = 8) :
    ∀ (l : List α) (j : Nat) (x : α) (rest : List Byte), l[j]? = some x →
      ((l.flatMap f ++ rest).drop (8 * j)).take 8 = f x
  | [], j, x, rest, h => by simp at h
  | y :: l, 0, x, rest, h => by
    simp at h; subst h
    simp only [List.flatMap_cons, Nat.mul_zero, List.drop_zero, List.append_assoc]
    exact List.take_left' (hf _)
  | y :: l, j + 1, x, rest, h => by
    simp only [List.getElem?_cons_succ] at h
    rw [List.flatMap_cons, List.append_assoc, Nat.mul_add, Nat.add_comm, ← List.drop_drop,
      List.drop_left' (hf y)]
    exact flatMap8_drop_take hf l j x rest h

/-- The four bytes of a number are those of its low 32 bits. -/
theorem leBytes_four (n : Nat) : leBytes 4 n = i32Le (BitVec.ofNat 32 n) := by
  have h : leNat (leBytes 4 n) = leNat (leBytes 4 (BitVec.ofNat 32 n).toNat) := by
    rw [leNat_leBytes, leNat_leBytes]; simp
  have h := congrArg (leBytes 4) h
  have a := leBytes_leNat (leBytes 4 n)
  have b := leBytes_leNat (leBytes 4 (BitVec.ofNat 32 n).toNat)
  simp only [leBytes_length] at a b
  rw [a, b] at h; exact h

/-- A number below 2^31 is its own signed 32-bit value. -/
theorem toInt_ofNat_small {n : Nat} (h : n ≤ 2147483647) : (BitVec.ofNat 32 n).toInt = n := by
  rw [BitVec.toInt_eq_toNat_cond, BitVec.toNat_ofNat, Nat.mod_eq_of_lt (by omega), if_pos (by omega)]

/-- The groups put together are the bytes they were cut from. -/
theorem groups8_flatten (n : Nat) (b : List Byte) (h : 8 * n ≤ b.length) :
    (groups8 n b).flatten = b.take (8 * n) := by
  induction n generalizing b with
  | zero => simp [groups8]
  | succ n ih =>
    simp only [groups8, List.flatten_cons]
    rw [ih _ (by simp; omega), show 8 * (n + 1) = 8 + 8 * n by omega, List.take_add]

theorem groups8_mem_length (n : Nat) (b : List Byte) (h : 8 * n ≤ b.length) :
    ∀ g ∈ groups8 n b, g.length = 8 := by
  induction n generalizing b with
  | zero => simp [groups8]
  | succ n ih =>
    intro g hg
    simp only [groups8, List.mem_cons] at hg
    rcases hg with rfl | hg
    · simp; omega
    · exact ih _ (by simp; omega) g hg

theorem groups8_getElem? (n : Nat) (b : List Byte) (i : Nat) (h : i < n) :
    (groups8 n b)[i]? = some ((b.drop (8 * i)).take 8) := by
  induction n generalizing b i with
  | zero => omega
  | succ n ih =>
    cases i with
    | zero => simp [groups8]
    | succ i =>
      simp only [groups8, List.getElem?_cons_succ]
      rw [ih _ _ (by omega), List.drop_drop]; congr 3; omega

/-- What the decoder accepts has the capacities asked for and meets the heap invariants. -/
theorem decodeImage_ok {heapCap vecCap : Nat} {b : List Byte} {v : VectorHeap}
    (h : decodeImage heapCap vecCap b = some v) :
    heapOk v = true ∧ v.cells.length = heapCap ∧ v.table.length = vecCap := by
  unfold decodeImage at h
  split at h; · cases h
  split at h; · cases h
  next h1 =>
  split at h; · cases h
  next h2 =>
  simp only at h
  split at h
  · next h3 =>
    cases h
    refine ⟨?_, by simp, by simp⟩
    simp only [heapOk, h3, Bool.and_true, decide_eq_true_eq, readImage_cells_length, readImage_table_length]
    simp [readImage]; omega
  · cases h

end Machine

end Sys2Proof
end

