-- ==== Sys2Proof/Laws/Decode.lean ====
section
/-! SUPPORT. The opcode map and the operand bytes (30_encoding.md R100, R106). -/

namespace Sys2Proof

theorem Mnemonic.mem_all (m : Mnemonic) : m ∈ Mnemonic.all := by cases m <;> decide

/-- What the opcode map finds is assigned to the byte. -/
theorem OpMap.byteOf_of_lookup {o : OpMap} {b : Byte} {m : Mnemonic} (h : o.lookup b = some m) :
    o.byteOf m = b := by
  simpa using List.find?_some h

/-- The opcode map finds nothing exactly when no mnemonic has the byte. -/
theorem OpMap.lookup_eq_none {o : OpMap} {b : Byte} : o.lookup b = none ↔ ∀ m, o.byteOf m ≠ b := by
  simp [OpMap.lookup, Mnemonic.mem_all]

/-- An injective opcode map gives no two mnemonics the same byte. -/
theorem OpMap.byteOf_inj {o : OpMap} (h : o.WellFormed = true) {m n : Mnemonic}
    (hmn : o.byteOf m = o.byteOf n) : m = n := by
  have h : (Mnemonic.all.map o.byteOf).Nodup := by simpa [OpMap.WellFormed] using h
  exact List.inj_on_of_nodup_map h m.mem_all n.mem_all hmn

/-- An injective opcode map finds each mnemonic at its own byte. -/
theorem OpMap.lookup_byteOf {o : OpMap} (h : o.WellFormed = true) (m : Mnemonic) :
    o.lookup (o.byteOf m) = some m := by
  cases hl : o.lookup (o.byteOf m) with
  | none => exact absurd rfl (OpMap.lookup_eq_none.1 hl m)
  | some n => rw [OpMap.byteOf_inj h (OpMap.byteOf_of_lookup hl)]

@[simp] theorem operandBytes_length (i : Instr) : i.operandBytes.length = i.mnemonic.operandLength := by
  cases i <;> simp [Instr.operandBytes, Instr.mnemonic, Mnemonic.operandLength]

/-- The operand bytes of an instruction give it back. -/
@[simp] theorem instrOf_operandBytes (i : Instr) : instrOf i.mnemonic i.operandBytes = i := by
  cases i <;> simp [Instr.operandBytes, Instr.mnemonic, instrOf]

@[simp] theorem instrOf_mnemonic (m : Mnemonic) (b : List Byte) : (instrOf m b).mnemonic = m := by
  cases m <;> rfl

end Sys2Proof
end

