-- ==== Sys2Proof/Laws/State.lean ====
section
/-! SUPPORT. One lemma per field for each update of the state that the instructions share. -/

namespace Sys2Proof.Machine

/-! ### `emit` -/

@[simp] theorem emit_engine (e : Event) (s : State) : (emit e s).engine = s.engine := rfl
@[simp] theorem emit_cause (e : Event) (s : State) : (emit e s).cause = s.cause := rfl
@[simp] theorem emit_ip (e : Event) (s : State) : (emit e s).ip = s.ip := rfl
@[simp] theorem emit_plen (e : Event) (s : State) : (emit e s).plen = s.plen := rfl
@[simp] theorem emit_prog (e : Event) (s : State) : (emit e s).prog = s.prog := rfl
@[simp] theorem emit_stack (e : Event) (s : State) : (emit e s).stack = s.stack := rfl
@[simp] theorem emit_globals (e : Event) (s : State) : (emit e s).globals = s.globals := rfl
@[simp] theorem emit_vh (e : Event) (s : State) : (emit e s).vh = s.vh := rfl
@[simp] theorem emit_events (e : Event) (s : State) : (emit e s).events = s.events ++ [e] := rfl
@[simp] theorem emit_slot (e : Event) (s : State) : (emit e s).slot = s.slot := rfl
@[simp] theorem emit_prompted (e : Event) (s : State) : (emit e s).prompted = s.prompted := rfl
@[simp] theorem emit_host (e : Event) (s : State) : (emit e s).host = s.host := rfl
@[simp] theorem emit_draws (e : Event) (s : State) : (emit e s).draws = s.draws := rfl
@[simp] theorem emit_progCap (e : Event) (s : State) : (emit e s).progCap = s.progCap := rfl
@[simp] theorem emit_stackCap (e : Event) (s : State) : (emit e s).stackCap = s.stackCap := rfl
@[simp] theorem emit_opmap (e : Event) (s : State) : (emit e s).opmap = s.opmap := rfl

/-! ### `raise` -/

@[simp] theorem raise_engine (c : Cause) (s : State) : (raise c s).engine = .halted := rfl
@[simp] theorem raise_cause (c : Cause) (s : State) : (raise c s).cause = c := rfl
@[simp] theorem raise_ip (c : Cause) (s : State) : (raise c s).ip = s.ip := rfl
@[simp] theorem raise_plen (c : Cause) (s : State) : (raise c s).plen = s.plen := rfl
@[simp] theorem raise_prog (c : Cause) (s : State) : (raise c s).prog = s.prog := rfl
@[simp] theorem raise_stack (c : Cause) (s : State) : (raise c s).stack = s.stack := rfl
@[simp] theorem raise_globals (c : Cause) (s : State) : (raise c s).globals = s.globals := rfl
@[simp] theorem raise_vh (c : Cause) (s : State) : (raise c s).vh = s.vh := rfl
@[simp] theorem raise_events (c : Cause) (s : State) : (raise c s).events = s.events ++ [.diag c.code s.ip] := rfl
@[simp] theorem raise_slot (c : Cause) (s : State) : (raise c s).slot = s.slot := rfl
@[simp] theorem raise_prompted (c : Cause) (s : State) : (raise c s).prompted = s.prompted := rfl
@[simp] theorem raise_host (c : Cause) (s : State) : (raise c s).host = s.host := rfl
@[simp] theorem raise_draws (c : Cause) (s : State) : (raise c s).draws = s.draws := rfl
@[simp] theorem raise_progCap (c : Cause) (s : State) : (raise c s).progCap = s.progCap := rfl
@[simp] theorem raise_stackCap (c : Cause) (s : State) : (raise c s).stackCap = s.stackCap := rfl
@[simp] theorem raise_opmap (c : Cause) (s : State) : (raise c s).opmap = s.opmap := rfl

/-! ### `warn` -/

@[simp] theorem warn_engine (w : Option Warning) (s : State) : (warn w s).engine = s.engine := rfl
@[simp] theorem warn_cause (w : Option Warning) (s : State) : (warn w s).cause = s.cause := rfl
@[simp] theorem warn_ip (w : Option Warning) (s : State) : (warn w s).ip = s.ip := rfl
@[simp] theorem warn_plen (w : Option Warning) (s : State) : (warn w s).plen = s.plen := rfl
@[simp] theorem warn_prog (w : Option Warning) (s : State) : (warn w s).prog = s.prog := rfl
@[simp] theorem warn_stack (w : Option Warning) (s : State) : (warn w s).stack = s.stack := rfl
@[simp] theorem warn_globals (w : Option Warning) (s : State) : (warn w s).globals = s.globals := rfl
@[simp] theorem warn_vh (w : Option Warning) (s : State) : (warn w s).vh = s.vh := rfl
@[simp] theorem warn_events (w : Option Warning) (s : State) : (warn w s).events = s.events ++ (w.map fun x => Event.diag x.code s.ip).toList := rfl
@[simp] theorem warn_slot (w : Option Warning) (s : State) : (warn w s).slot = s.slot := rfl
@[simp] theorem warn_prompted (w : Option Warning) (s : State) : (warn w s).prompted = s.prompted := rfl
@[simp] theorem warn_host (w : Option Warning) (s : State) : (warn w s).host = s.host := rfl
@[simp] theorem warn_draws (w : Option Warning) (s : State) : (warn w s).draws = s.draws := rfl
@[simp] theorem warn_progCap (w : Option Warning) (s : State) : (warn w s).progCap = s.progCap := rfl
@[simp] theorem warn_stackCap (w : Option Warning) (s : State) : (warn w s).stackCap = s.stackCap := rfl
@[simp] theorem warn_opmap (w : Option Warning) (s : State) : (warn w s).opmap = s.opmap := rfl

/-! ### `haltAtEnd` -/

@[simp] theorem haltAtEnd_engine (s : State) : (haltAtEnd s).engine = .halted := rfl
@[simp] theorem haltAtEnd_cause (s : State) : (haltAtEnd s).cause = .endOfProgram := rfl
@[simp] theorem haltAtEnd_ip (s : State) : (haltAtEnd s).ip = s.ip := rfl
@[simp] theorem haltAtEnd_plen (s : State) : (haltAtEnd s).plen = s.plen := rfl
@[simp] theorem haltAtEnd_prog (s : State) : (haltAtEnd s).prog = s.prog := rfl
@[simp] theorem haltAtEnd_stack (s : State) : (haltAtEnd s).stack = s.stack := rfl
@[simp] theorem haltAtEnd_globals (s : State) : (haltAtEnd s).globals = s.globals := rfl
@[simp] theorem haltAtEnd_vh (s : State) : (haltAtEnd s).vh = s.vh := rfl
@[simp] theorem haltAtEnd_events (s : State) : (haltAtEnd s).events = s.events := rfl
@[simp] theorem haltAtEnd_slot (s : State) : (haltAtEnd s).slot = s.slot := rfl
@[simp] theorem haltAtEnd_prompted (s : State) : (haltAtEnd s).prompted = s.prompted := rfl
@[simp] theorem haltAtEnd_host (s : State) : (haltAtEnd s).host = s.host := rfl
@[simp] theorem haltAtEnd_draws (s : State) : (haltAtEnd s).draws = s.draws := rfl
@[simp] theorem haltAtEnd_progCap (s : State) : (haltAtEnd s).progCap = s.progCap := rfl
@[simp] theorem haltAtEnd_stackCap (s : State) : (haltAtEnd s).stackCap = s.stackCap := rfl
@[simp] theorem haltAtEnd_opmap (s : State) : (haltAtEnd s).opmap = s.opmap := rfl

/-! ### `advance` -/

@[simp] theorem advance_engine (n : Nat) (s : State) : (advance n s).engine = s.engine := rfl
@[simp] theorem advance_cause (n : Nat) (s : State) : (advance n s).cause = s.cause := rfl
@[simp] theorem advance_ip (n : Nat) (s : State) : (advance n s).ip = s.ip + n := rfl
@[simp] theorem advance_plen (n : Nat) (s : State) : (advance n s).plen = s.plen := rfl
@[simp] theorem advance_prog (n : Nat) (s : State) : (advance n s).prog = s.prog := rfl
@[simp] theorem advance_stack (n : Nat) (s : State) : (advance n s).stack = s.stack := rfl
@[simp] theorem advance_globals (n : Nat) (s : State) : (advance n s).globals = s.globals := rfl
@[simp] theorem advance_vh (n : Nat) (s : State) : (advance n s).vh = s.vh := rfl
@[simp] theorem advance_events (n : Nat) (s : State) : (advance n s).events = s.events := rfl
@[simp] theorem advance_slot (n : Nat) (s : State) : (advance n s).slot = s.slot := rfl
@[simp] theorem advance_prompted (n : Nat) (s : State) : (advance n s).prompted = s.prompted := rfl
@[simp] theorem advance_host (n : Nat) (s : State) : (advance n s).host = s.host := rfl
@[simp] theorem advance_draws (n : Nat) (s : State) : (advance n s).draws = s.draws := rfl
@[simp] theorem advance_progCap (n : Nat) (s : State) : (advance n s).progCap = s.progCap := rfl
@[simp] theorem advance_stackCap (n : Nat) (s : State) : (advance n s).stackCap = s.stackCap := rfl
@[simp] theorem advance_opmap (n : Nat) (s : State) : (advance n s).opmap = s.opmap := rfl

/-! ### `countDraw` -/

@[simp] theorem countDraw_engine (s : State) : (countDraw s).engine = s.engine := rfl
@[simp] theorem countDraw_cause (s : State) : (countDraw s).cause = s.cause := rfl
@[simp] theorem countDraw_ip (s : State) : (countDraw s).ip = s.ip := rfl
@[simp] theorem countDraw_plen (s : State) : (countDraw s).plen = s.plen := rfl
@[simp] theorem countDraw_prog (s : State) : (countDraw s).prog = s.prog := rfl
@[simp] theorem countDraw_stack (s : State) : (countDraw s).stack = s.stack := rfl
@[simp] theorem countDraw_globals (s : State) : (countDraw s).globals = s.globals := rfl
@[simp] theorem countDraw_vh (s : State) : (countDraw s).vh = s.vh := rfl
@[simp] theorem countDraw_events (s : State) : (countDraw s).events = s.events := rfl
@[simp] theorem countDraw_slot (s : State) : (countDraw s).slot = s.slot := rfl
@[simp] theorem countDraw_prompted (s : State) : (countDraw s).prompted = s.prompted := rfl
@[simp] theorem countDraw_host (s : State) : (countDraw s).host = s.host := rfl
@[simp] theorem countDraw_draws (s : State) : (countDraw s).draws = s.draws + 1 := rfl
@[simp] theorem countDraw_progCap (s : State) : (countDraw s).progCap = s.progCap := rfl
@[simp] theorem countDraw_stackCap (s : State) : (countDraw s).stackCap = s.stackCap := rfl
@[simp] theorem countDraw_opmap (s : State) : (countDraw s).opmap = s.opmap := rfl

/-! ### `gstore` -/

@[simp] theorem gstore_engine (i : Nat) (v : F64) (s : State) : (gstore i v s).engine = s.engine := rfl
@[simp] theorem gstore_cause (i : Nat) (v : F64) (s : State) : (gstore i v s).cause = s.cause := rfl
@[simp] theorem gstore_ip (i : Nat) (v : F64) (s : State) : (gstore i v s).ip = s.ip := rfl
@[simp] theorem gstore_plen (i : Nat) (v : F64) (s : State) : (gstore i v s).plen = s.plen := rfl
@[simp] theorem gstore_prog (i : Nat) (v : F64) (s : State) : (gstore i v s).prog = s.prog := rfl
@[simp] theorem gstore_stack (i : Nat) (v : F64) (s : State) : (gstore i v s).stack = s.stack := rfl
@[simp] theorem gstore_globals (i : Nat) (v : F64) (s : State) : (gstore i v s).globals = s.globals.set i v := rfl
@[simp] theorem gstore_vh (i : Nat) (v : F64) (s : State) : (gstore i v s).vh = s.vh := rfl
@[simp] theorem gstore_events (i : Nat) (v : F64) (s : State) : (gstore i v s).events = s.events := rfl
@[simp] theorem gstore_slot (i : Nat) (v : F64) (s : State) : (gstore i v s).slot = s.slot := rfl
@[simp] theorem gstore_prompted (i : Nat) (v : F64) (s : State) : (gstore i v s).prompted = s.prompted := rfl
@[simp] theorem gstore_host (i : Nat) (v : F64) (s : State) : (gstore i v s).host = s.host := rfl
@[simp] theorem gstore_draws (i : Nat) (v : F64) (s : State) : (gstore i v s).draws = s.draws := rfl
@[simp] theorem gstore_progCap (i : Nat) (v : F64) (s : State) : (gstore i v s).progCap = s.progCap := rfl
@[simp] theorem gstore_stackCap (i : Nat) (v : F64) (s : State) : (gstore i v s).stackCap = s.stackCap := rfl
@[simp] theorem gstore_opmap (i : Nat) (v : F64) (s : State) : (gstore i v s).opmap = s.opmap := rfl

/-! ### Derived accessors -/

@[simp] theorem emit_globalCap (e : Event) (s : State) : (emit e s).globalCap = s.globalCap := rfl
@[simp] theorem emit_config (e : Event) (s : State) : (emit e s).config = s.config := rfl
@[simp] theorem raise_globalCap (c : Cause) (s : State) : (raise c s).globalCap = s.globalCap := rfl
@[simp] theorem raise_config (c : Cause) (s : State) : (raise c s).config = s.config := rfl
@[simp] theorem warn_globalCap (w : Option Warning) (s : State) : (warn w s).globalCap = s.globalCap := rfl
@[simp] theorem warn_config (w : Option Warning) (s : State) : (warn w s).config = s.config := rfl
@[simp] theorem haltAtEnd_globalCap (s : State) : (haltAtEnd s).globalCap = s.globalCap := rfl
@[simp] theorem haltAtEnd_config (s : State) : (haltAtEnd s).config = s.config := rfl
@[simp] theorem advance_globalCap (n : Nat) (s : State) : (advance n s).globalCap = s.globalCap := rfl
@[simp] theorem advance_config (n : Nat) (s : State) : (advance n s).config = s.config := rfl
@[simp] theorem countDraw_globalCap (s : State) : (countDraw s).globalCap = s.globalCap := rfl
@[simp] theorem countDraw_config (s : State) : (countDraw s).config = s.config := rfl

@[simp] theorem gstore_globalCap (i : Nat) (v : F64) (s : State) :
    (gstore i v s).globalCap = s.globalCap := by simp [State.globalCap]
@[simp] theorem gstore_config (i : Nat) (v : F64) (s : State) : (gstore i v s).config = s.config := by
  simp [State.config, State.globalCap, State.heapCap, State.vecCap]

/-! ### `awaitLine` -/

@[simp] theorem awaitLine_engine (s : State) : (awaitLine s).engine = s.engine := by unfold awaitLine; split <;> rfl
@[simp] theorem awaitLine_cause (s : State) : (awaitLine s).cause = s.cause := by unfold awaitLine; split <;> rfl
@[simp] theorem awaitLine_ip (s : State) : (awaitLine s).ip = s.ip := by unfold awaitLine; split <;> rfl
@[simp] theorem awaitLine_plen (s : State) : (awaitLine s).plen = s.plen := by unfold awaitLine; split <;> rfl
@[simp] theorem awaitLine_prog (s : State) : (awaitLine s).prog = s.prog := by unfold awaitLine; split <;> rfl
@[simp] theorem awaitLine_stack (s : State) : (awaitLine s).stack = s.stack := by unfold awaitLine; split <;> rfl
@[simp] theorem awaitLine_globals (s : State) : (awaitLine s).globals = s.globals := by unfold awaitLine; split <;> rfl
@[simp] theorem awaitLine_vh (s : State) : (awaitLine s).vh = s.vh := by unfold awaitLine; split <;> rfl
@[simp] theorem awaitLine_slot (s : State) : (awaitLine s).slot = s.slot := by unfold awaitLine; split <;> rfl
@[simp] theorem awaitLine_host (s : State) : (awaitLine s).host = s.host := by unfold awaitLine; split <;> rfl
@[simp] theorem awaitLine_draws (s : State) : (awaitLine s).draws = s.draws := by unfold awaitLine; split <;> rfl
@[simp] theorem awaitLine_progCap (s : State) : (awaitLine s).progCap = s.progCap := by unfold awaitLine; split <;> rfl
@[simp] theorem awaitLine_stackCap (s : State) : (awaitLine s).stackCap = s.stackCap := by unfold awaitLine; split <;> rfl
@[simp] theorem awaitLine_opmap (s : State) : (awaitLine s).opmap = s.opmap := by unfold awaitLine; split <;> rfl
@[simp] theorem awaitLine_prompted (s : State) : (awaitLine s).prompted = true := by
  unfold awaitLine; split <;> simp_all
@[simp] theorem awaitLine_events (s : State) :
    (awaitLine s).events = s.events ++ if s.prompted then [] else [.prompt] := by
  unfold awaitLine; split <;> simp

/-- The wait is entered once. -/
@[simp] theorem awaitLine_awaitLine (s : State) : awaitLine (awaitLine s) = awaitLine s := by
  rw [awaitLine, if_pos (awaitLine_prompted s)]

end Sys2Proof.Machine
end

