-- ==== Sys2Proof/Laws/Ops.lean ====
section
/-! SUPPORT. What each shared operation can do, said once: the end of a step, push, pop and peek, the
two-operand shape, jumps, the fetch window, and the host's ports. -/

namespace Sys2Proof.Machine

/-! ### The end of an instruction -/

@[simp] theorem settle_ok (s t : State) : settle s (.ok t) = .next t := rfl
@[simp] theorem settle_raise (s : State) (c : Cause) : settle s (.error (.raise c)) = .next (raise c s) := rfl
@[simp] theorem settle_fault (s : State) (f : Fault) : settle s (.error (.fault f)) = .fault f := rfl

/-- An instruction answers a next state by completing or by taking a fatal error in its start state. -/
theorem settle_next {s t : State} {r : Except Stop State} :
    settle s r = .next t ↔ r = .ok t ∨ ∃ c, r = .error (.raise c) ∧ t = raise c s := by
  rcases r with (c | f) | u <;> simp [settle, eq_comm]

/-- The sequencing of two bodies, one after the other. -/
theorem bind_ok {α β : Type} {x : Except Stop α} {f : α → Except Stop β} {r : β} :
    (x >>= f) = .ok r ↔ ∃ a, x = .ok a ∧ f a = .ok r := by
  rcases x with e | a <;> simp [bind, Except.bind]

/-- A sequence stops where its first part stops, or where its second does. -/
theorem bind_error {α β : Type} {x : Except Stop α} {f : α → Except Stop β} {e : Stop} :
    (x >>= f) = .error e ↔ x = .error e ∨ ∃ a, x = .ok a ∧ f a = .error e := by
  rcases x with e' | a <;> simp [bind, Except.bind]

@[simp] theorem ok_bind {α β : Type} (a : α) (f : α → Except Stop β) : (Except.ok a >>= f) = f a := rfl
@[simp] theorem error_bind {α β : Type} (e : Stop) (f : α → Except Stop β) :
    ((Except.error e : Except Stop α) >>= f) = .error e := rfl

/-! ### The operand stack -/

theorem push_ok {s : State} (v : F64) (h : s.stack.length < s.stackCap) :
    push v s = .ok { s with stack := v :: s.stack } := if_pos h

theorem push_full {s : State} (v : F64) (h : s.stackCap ≤ s.stack.length) :
    push v s = .error (.raise .stackOverflow) := if_neg (by omega)

theorem push_eq_ok {s t : State} {v : F64} :
    push v s = .ok t ↔ s.stack.length < s.stackCap ∧ t = { s with stack := v :: s.stack } := by
  unfold push; split <;> simp_all [eq_comm]

theorem push_eq_error {s : State} {v : F64} {e : Stop} :
    push v s = .error e ↔ s.stackCap ≤ s.stack.length ∧ e = .raise .stackOverflow := by
  unfold push; split <;> simp_all [eq_comm]

theorem pop_nil {s : State} (h : s.stack = []) : pop s = .error (.raise .stackUnderflow) := by
  simp [pop, h]

theorem pop_cons {s : State} {v : F64} {rest : List F64} (h : s.stack = v :: rest) :
    pop s = .ok (v, { s with stack := rest }) := by simp [pop, h]

theorem pop_eq_ok {s u : State} {v : F64} :
    pop s = .ok (v, u) ↔ ∃ rest, s.stack = v :: rest ∧ u = { s with stack := rest } := by
  unfold pop
  split
  · next h => simp [h]
  · next w rest h =>
    simp only [Except.ok.injEq, Prod.mk.injEq, h, List.cons.injEq]
    constructor
    · rintro ⟨rfl, rfl⟩; exact ⟨rest, ⟨rfl, rfl⟩, rfl⟩
    · rintro ⟨_, ⟨rfl, rfl⟩, rfl⟩; exact ⟨rfl, rfl⟩

theorem pop_eq_error {s : State} {e : Stop} :
    pop s = .error e ↔ s.stack = [] ∧ e = .raise .stackUnderflow := by
  unfold pop; split <;> simp_all [eq_comm]

theorem peek_cons {s : State} {v : F64} {rest : List F64} (h : s.stack = v :: rest) : peek s = .ok v := by
  simp [peek, h]

theorem peek_nil {s : State} (h : s.stack = []) : peek s = .error (.raise .stackUnderflow) := by
  simp [peek, h]

/-! ### The two-operand shape -/

theorem binary_ok {s : State} {op : F64 → F64 → F64} {a b : F64} {rest : List F64}
    (h : s.stack = b :: a :: rest) (hc : rest.length < s.stackCap) :
    binary op s = .ok { s with stack := op a b :: rest } := by
  simp [binary, pop, h, push, hc]

theorem binary_underflow {s : State} {op : F64 → F64 → F64} (h : s.stack.length < 2) :
    binary op s = .error (.raise .stackUnderflow) := by
  obtain h | ⟨a, h⟩ : s.stack = [] ∨ ∃ a, s.stack = [a] := by
    match hs : s.stack with
    | [] => exact .inl rfl
    | [a] => exact .inr ⟨a, rfl⟩
    | _ :: _ :: _ => simp [hs] at h
  all_goals simp [binary, pop, h]

/-- The two-operand shape completes only by replacing the two top cells. -/
theorem binary_eq_ok {s t : State} {op : F64 → F64 → F64} :
    binary op s = .ok t ↔ ∃ a b rest, s.stack = b :: a :: rest ∧ rest.length < s.stackCap ∧
      t = { s with stack := op a b :: rest } := by
  refine ⟨fun h => ?_, fun ⟨a, b, rest, hs, hc, ht⟩ => ht ▸ binary_ok hs hc⟩
  match hs : s.stack with
  | [] => rw [binary_underflow (by simp [hs])] at h; cases h
  | [a] => rw [binary_underflow (by simp [hs])] at h; cases h
  | b :: a :: rest =>
    simp only [binary, pop, hs, ok_bind] at h
    obtain ⟨hc, rfl⟩ := push_eq_ok.1 h
    exact ⟨a, b, rest, rfl, hc, rfl⟩

/-- The two-operand shape stops only by underflow, or by an overflow that needs an over-full stack. -/
theorem binary_eq_error {s : State} {op : F64 → F64 → F64} {e : Stop} (h : binary op s = .error e) :
    (s.stack.length < 2 ∧ e = .raise .stackUnderflow) ∨
      (s.stackCap + 2 ≤ s.stack.length ∧ e = .raise .stackOverflow) := by
  match hs : s.stack with
  | [] => rw [binary_underflow (by simp [hs])] at h; simp_all
  | [a] => rw [binary_underflow (by simp [hs])] at h; simp_all
  | b :: a :: rest =>
    by_cases hc : rest.length < s.stackCap
    · rw [binary_ok hs hc] at h; cases h
    · simp only [binary, pop, hs, ok_bind] at h
      obtain ⟨hc, rfl⟩ := push_eq_error.1 h
      exact .inr ⟨by simpa using hc, rfl⟩

/-! ### Jumps -/

theorem jump_eq_ok {s t : State} {imm : I32} :
    jump imm s = .ok t ↔ ∃ a, jumpTarget s.ip s.plen imm = some a ∧ t = { s with ip := a } := by
  unfold jump
  cases jumpTarget s.ip s.plen imm <;> simp [eq_comm]

theorem jump_eq_error {s : State} {imm : I32} {e : Stop} :
    jump imm s = .error e ↔ jumpTarget s.ip s.plen imm = none ∧ e = .raise .invalidJumpTarget := by
  unfold jump
  cases jumpTarget s.ip s.plen imm <;> simp [eq_comm]

/-- A jump target is within the program. -/
theorem jumpTarget_le {ip plen a : Nat} {imm : I32} (h : jumpTarget ip plen imm = some a) : a ≤ plen := by
  simp only [jumpTarget] at h; split at h <;> simp_all
  omega

/-- A target within the program is the jump's target. -/
theorem jumpTarget_some {ip plen a : Nat} {imm : I32} (h : (ip : Int) + 5 + imm.toInt = a) (ha : a ≤ plen) :
    jumpTarget ip plen imm = some a := by
  simp only [jumpTarget, h]; rw [if_pos (by omega)]; simp

/-- A target outside the program is refused. -/
theorem jumpTarget_none {ip plen : Nat} {imm : I32}
    (h : (ip : Int) + 5 + imm.toInt < 0 ∨ plen < (ip : Int) + 5 + imm.toInt) :
    jumpTarget ip plen imm = none := by
  rw [jumpTarget, if_neg (by simp only [sext]; omega)]

/-! ### Global indices -/

theorem globalIndex_some {imm : I32} {g : Nat} (h0 : 0 ≤ imm.toInt) (h : imm.toInt < g) :
    globalIndex imm g = some imm.toInt.toNat := if_pos ⟨h0, h⟩

theorem globalIndex_none {imm : I32} {g : Nat} (h : imm.toInt < 0 ∨ g ≤ imm.toInt) :
    globalIndex imm g = none := if_neg (by simp only [sext]; omega)

/-! ### The fetch window -/

@[simp] theorem fetchWindow_length (s : State) : (fetchWindow s).length = min 9 (s.plen - s.ip) := by
  simp [fetchWindow]

/-- The bytes of the window are those of the program store. -/
theorem fetchWindow_getElem {s : State} {k : Nat} (h : k < (fetchWindow s).length) :
    (fetchWindow s)[k] = Memory.read s.prog (s.ip + k) := by
  simp [fetchWindow]

/-- The window depends only on the program and the instruction pointer. -/
theorem fetchWindow_congr {s t : State} (h1 : t.prog = s.prog) (h2 : t.plen = s.plen) (h3 : t.ip = s.ip) :
    fetchWindow t = fetchWindow s := by simp [fetchWindow, h1, h2, h3]

/-! ### The random port -/

/-- Every answer of the random port is in the admissible range (20_memory.md R86). -/
theorem randomValue_lt (w : BitVec 64) : (randomValue w).toNat < 0x3FF0000000000000 := by
  have := Nat.mod_lt w.toNat (show 0 < 0x3FF0000000000000 by decide)
  simp only [randomValue, BitVec.toNat_ofNat]
  omega

/-- Every admissible pattern is an answer. -/
theorem randomValue_self {w : BitVec 64} (h : w.toNat < 0x3FF0000000000000) : randomValue w = w := by
  simp [randomValue, Nat.mod_eq_of_lt h]

/-! ### Heap -/

/-- Allocation keeps the capacities. -/
theorem allocate_cells_length {imm : I32} {values : List F64} {v : VectorHeap}
    (h : v.hp + values.length ≤ v.cells.length) :
    (allocate imm values v).cells.length = v.cells.length := by
  simp [allocate]; omega

@[simp] theorem allocate_table_length (imm : I32) (values : List F64) (v : VectorHeap) :
    (allocate imm values v).table.length = v.table.length := by simp [allocate]

/-- Allocation of checked operands keeps the heap invariants. -/
theorem heapOk_allocate {v : VectorHeap} {imm : I32} {vals : List F64} (h : heapOk v = true)
    (h1 : imm.toInt = vals.length) (h0 : 0 < vals.length) (h2 : v.hp + vals.length ≤ v.cells.length)
    (h3 : v.vc < v.table.length) (hc : v.cells.length ≤ 2147483647) : heapOk (allocate imm vals v) = true := by
  simp only [heapOk, Bool.and_eq_true, decide_eq_true_eq, List.all_eq_true, allocate_cells_length h2,
    allocate_table_length] at h ⊢
  obtain ⟨⟨ha, hb⟩, hall⟩ := h
  refine ⟨⟨by simp [allocate]; omega, by simp [allocate]; omega⟩, fun d hd => ?_⟩
  have he : (allocate imm vals v).table.take (allocate imm vals v).vc =
      v.table.take v.vc ++ [{ size := imm, base := BitVec.ofNat 32 v.hp }] := by
    simp only [allocate]
    rw [List.take_add_one, List.take_set_of_le (le_refl _), List.getElem?_set_self h3]; rfl
  rw [he, List.mem_append] at hd
  rcases hd with hd | hd
  · have := hall d hd
    simp only [descriptorOk, decide_eq_true_eq] at this ⊢
    simp [allocate]; omega
  · simp only [List.mem_singleton] at hd; subst hd
    have e : (BitVec.ofNat 32 v.hp).toInt = v.hp := by
      rw [BitVec.toInt_eq_toNat_cond, BitVec.toNat_ofNat, Nat.mod_eq_of_lt (by omega), if_pos (by omega)]
    simp only [descriptorOk, decide_eq_true_eq, e, allocate]
    push_cast; omega

end Sys2Proof.Machine
end

