-- ==== Sys2Proof/Laws/Exec.lean ====
section
/-! SUPPORT. Each instruction inverted: every next state it can give, either its own effect or a fatal
error taken in its start state. Later proofs take a step apart with these. -/

namespace Sys2Proof.Machine

/-- The next states of a body followed by a total completion. -/
theorem settle_bind {s t : State} {x : Except Stop State} {f : State → State}
    (h : settle s (x >>= fun u => Except.ok (f u)) = .next t) :
    (∃ u, x = .ok u ∧ t = f u) ∨ ∃ c, x = .error (.raise c) ∧ t = raise c s := by
  rcases x with (c | f) | u <;> simp [settle, bind, Except.bind] at h ⊢ <;> exact h.symm

theorem execHalt_next {s t : State} (h : execHalt s = .next t) :
    t = { s with engine := .halted, cause := .haltInsn, ip := s.ip + 1 } := by
  cases h; rfl

theorem execPush_next {lit : F64} {s t : State} (h : execPush lit s = .next t) :
    (s.stack.length < s.stackCap ∧ t = { s with stack := lit :: s.stack, ip := s.ip + 9 }) ∨
      t = raise .stackOverflow s := by
  obtain ⟨u, hu, rfl⟩ | ⟨c, hc, rfl⟩ := settle_bind h
  · obtain ⟨hl, rfl⟩ := push_eq_ok.1 hu
    exact .inl ⟨hl, rfl⟩
  · obtain ⟨-, hc⟩ := push_eq_error.1 hc
    cases hc
    exact .inr rfl

/-- The next states of a computed two-operand instruction. An overflow needs an over-full stack. -/
theorem computed_next {op : F64 → F64 → F64 → F64} {s t : State}
    (h : settle s (computed op s) = .next t) :
    (∃ a b rest, s.stack = b :: a :: rest ∧ rest.length < s.stackCap ∧ t = { s with
      stack := op (nanDraw s) a b :: rest, ip := s.ip + 1, draws := s.draws + 1 }) ∨
    t = raise .stackUnderflow s ∨ (s.stackCap + 2 ≤ s.stack.length ∧ t = raise .stackOverflow s) := by
  obtain ⟨u, hu, rfl⟩ | ⟨c, hc, rfl⟩ := settle_bind h
  · obtain ⟨a, b, rest, hs, hl, rfl⟩ := binary_eq_ok.1 hu
    exact .inl ⟨a, b, rest, hs, hl, rfl⟩
  · obtain ⟨-, hc⟩ | ⟨hl, hc⟩ := binary_eq_error hc <;> cases hc
    · exact .inr (.inl rfl)
    · exact .inr (.inr ⟨hl, rfl⟩)

/-- The next states of a comparison. -/
theorem compared_next {p : F64 → F64 → Bool} {s t : State} (h : settle s (compared p s) = .next t) :
    (∃ a b rest, s.stack = b :: a :: rest ∧ rest.length < s.stackCap ∧ t = { s with
      stack := truth (p a b) :: rest, ip := s.ip + 1 }) ∨
    t = raise .stackUnderflow s ∨ (s.stackCap + 2 ≤ s.stack.length ∧ t = raise .stackOverflow s) := by
  obtain ⟨u, hu, rfl⟩ | ⟨c, hc, rfl⟩ := settle_bind h
  · obtain ⟨a, b, rest, hs, hl, rfl⟩ := binary_eq_ok.1 hu
    exact .inl ⟨a, b, rest, hs, hl, rfl⟩
  · obtain ⟨-, hc⟩ | ⟨hl, hc⟩ := binary_eq_error hc <;> cases hc
    · exact .inr (.inl rfl)
    · exact .inr (.inr ⟨hl, rfl⟩)

theorem execDiv_next {s t : State} (h : execDiv s = .next t) :
    (∃ a b rest, s.stack = b :: a :: rest ∧ rest.length < s.stackCap ∧ fisZero b = false ∧
      t = { s with stack := fdiv (nanDraw s) a b :: rest, ip := s.ip + 1, draws := s.draws + 1 }) ∨
    t = raise .stackUnderflow s ∨ t = raise .divisionByZero s ∨
    (s.stackCap + 2 ≤ s.stack.length ∧ t = raise .stackOverflow s) := by
  match hs : s.stack with
  | [] => simp [execDiv, pop, hs] at h; simp [← h]
  | [a] => simp [execDiv, pop, hs] at h; simp [← h]
  | b :: a :: rest =>
    simp only [execDiv, pop, hs, ok_bind] at h
    split at h
    · simp at h; simp [← h]
    · next hz =>
      obtain ⟨u, hu, rfl⟩ | ⟨c, hc, rfl⟩ := settle_bind h
      · obtain ⟨hl, rfl⟩ := push_eq_ok.1 hu
        exact .inl ⟨a, b, rest, rfl, hl, by simpa using hz, rfl⟩
      · obtain ⟨hl, hc⟩ := push_eq_error.1 hc
        cases hc
        exact .inr (.inr (.inr ⟨by simpa using hl, rfl⟩))

theorem execRelu_next {s t : State} (h : execRelu s = .next t) :
    (∃ x rest, s.stack = x :: rest ∧ rest.length < s.stackCap ∧
      t = { s with stack := (if fgt x posZero then x else posZero) :: rest, ip := s.ip + 1 }) ∨
    t = raise .stackUnderflow s ∨ (s.stackCap + 1 ≤ s.stack.length ∧ t = raise .stackOverflow s) := by
  match hs : s.stack with
  | [] => simp [execRelu, pop, hs] at h; simp [← h]
  | x :: rest =>
    simp only [execRelu, pop, hs, ok_bind] at h
    obtain ⟨u, hu, rfl⟩ | ⟨c, hc, rfl⟩ := settle_bind h
    · obtain ⟨hl, rfl⟩ := push_eq_ok.1 hu
      exact .inl ⟨x, rest, rfl, hl, rfl⟩
    · obtain ⟨hl, hc⟩ := push_eq_error.1 hc
      cases hc
      exact .inr (.inr ⟨by simpa using hl, rfl⟩)

theorem execPrint_next {s t : State} (h : execPrint s = .next t) :
    (∃ v rest, s.stack = v :: rest ∧
      t = { s with stack := rest, events := s.events ++ [.print v], ip := s.ip + 1 }) ∨
    t = raise .stackUnderflow s := by
  match hs : s.stack with
  | [] => simp [execPrint, peek, hs] at h; simp [← h]
  | v :: rest =>
    simp only [execPrint, peek, pop, emit_stack, hs, ok_bind] at h
    cases h
    exact .inl ⟨v, rest, rfl, rfl⟩

theorem execGstore_next {imm : I32} {s t : State} (h : execGstore imm s = .next t) :
    (∃ i v rest, globalIndex imm s.globalCap = some i ∧ s.stack = v :: rest ∧
      t = { s with stack := rest, globals := s.globals.set i v, ip := s.ip + 5 }) ∨
    t = raise .invalidGlobalIndex s ∨ t = raise .stackUnderflow s := by
  unfold execGstore at h
  split at h
  · cases h; exact .inr (.inl rfl)
  · next i hi =>
    match hs : s.stack with
    | [] => simp [pop, hs] at h; simp [← h]
    | v :: rest =>
      simp only [pop, hs, ok_bind] at h
      cases h
      exact .inl ⟨i, v, rest, hi, rfl, rfl⟩

theorem execGload_next {imm : I32} {s t : State} (h : execGload imm s = .next t) :
    (∃ i, globalIndex imm s.globalCap = some i ∧ s.stack.length < s.stackCap ∧
      t = { s with stack := gload i s :: s.stack, ip := s.ip + 5 }) ∨
    t = raise .invalidGlobalIndex s ∨ t = raise .stackOverflow s := by
  unfold execGload at h
  split at h
  · cases h; exact .inr (.inl rfl)
  · next i hi =>
    obtain ⟨u, hu, rfl⟩ | ⟨c, hc, rfl⟩ := settle_bind h
    · obtain ⟨hl, rfl⟩ := push_eq_ok.1 hu
      exact .inl ⟨i, hi, hl, rfl⟩
    · obtain ⟨-, hc⟩ := push_eq_error.1 hc
      cases hc
      exact .inr (.inr rfl)

theorem execMkvec_next {imm : I32} {s t : State} (h : execMkvec imm s = .next t) :
    (0 < imm.toInt ∧ s.vh.hp + imm.toInt.toNat ≤ s.heapCap ∧ s.vh.vc < s.vecCap ∧
      imm.toInt.toNat ≤ s.stack.length ∧ t = { s with
        stack := f64OfNat s.vh.vc :: s.stack.drop imm.toInt.toNat
        vh := allocate imm (s.stack.take imm.toInt.toNat).reverse s.vh
        ip := s.ip + 5 }) ∨
    t = raise .invalidVectorSize s ∨ t = raise .outOfMemory s ∨ t = raise .tooManyVectors s ∨
    t = raise .insufficientOperands s := by
  change settle s (if imm.toInt ≤ 0 then _ else _) = _ at h
  by_cases h1 : imm.toInt ≤ 0
  · rw [if_pos h1] at h; cases h; simp
  rw [if_neg h1] at h
  change settle s (if s.heapCap < s.vh.hp + imm.toInt.toNat then _ else _) = _ at h
  by_cases h2 : s.heapCap < s.vh.hp + imm.toInt.toNat
  · rw [if_pos h2] at h; cases h; simp
  rw [if_neg h2] at h
  by_cases h3 : s.vecCap ≤ s.vh.vc
  · rw [if_pos h3] at h; cases h; simp
  rw [if_neg h3] at h
  change settle s (if s.stack.length < imm.toInt.toNat then _ else _) = _ at h
  by_cases h4 : s.stack.length < imm.toInt.toNat
  · rw [if_pos h4] at h; cases h; simp
  rw [if_neg h4] at h
  cases h
  exact .inl ⟨by omega, by omega, by omega, by omega, rfl⟩

theorem execDot_next {s t : State} (h : execDot s = .next t) :
    (∃ ha hb rest r, s.stack = hb :: ha :: rest ∧ rest.length < s.stackCap ∧
      t = { s with stack := r :: rest, ip := s.ip + 1, draws := s.draws + 1 }) ∨
    t = raise .stackUnderflow s ∨ t = raise .invalidVectorHandle s ∨ t = raise .vectorSizeMismatch s ∨
    (s.stackCap + 2 ≤ s.stack.length ∧ t = raise .stackOverflow s) := by
  match hs : s.stack with
  | [] => simp [execDot, pop, hs] at h; simp [← h]
  | [a] => simp [execDot, pop, hs] at h; simp [← h]
  | hb :: ha :: rest =>
    simp only [execDot, pop, hs, ok_bind] at h
    split at h
    · next ia ib _ _ =>
      split at h
      · next da db _ _ =>
        by_cases hd : da.size = db.size
        · simp only [dotOf, hd, ne_eq, not_true_eq_false, if_false] at h
          split at h
          · next xs ys _ _ =>
            simp only [ok_bind] at h
            obtain ⟨u, hu, rfl⟩ | ⟨c, hc, rfl⟩ := settle_bind h
            · obtain ⟨hl, rfl⟩ := push_eq_ok.1 hu
              exact .inl ⟨ha, hb, rest, _, rfl, hl, rfl⟩
            · obtain ⟨hl, hc⟩ := push_eq_error.1 hc
              cases hc
              exact .inr (.inr (.inr (.inr ⟨by simpa using hl, rfl⟩)))
          · cases h
        · simp only [dotOf, hd, ne_eq, not_false_eq_true, if_true, error_bind] at h
          cases h; simp
      · cases h
    · cases h; simp

theorem execJmpf_next {imm : I32} {s t : State} (h : execJmpf imm s = .next t) :
    (∃ c rest a, s.stack = c :: rest ∧ t = { s with stack := rest, ip := a } ∧
      ((fisZero c = false ∧ a = s.ip + 5) ∨ (fisZero c = true ∧ jumpTarget s.ip s.plen imm = some a))) ∨
    t = raise .stackUnderflow s ∨ t = raise .invalidJumpTarget s := by
  match hs : s.stack with
  | [] => simp [execJmpf, pop, hs] at h; simp [← h]
  | c :: rest =>
    simp only [execJmpf, pop, hs, ok_bind] at h
    split at h
    · next hz =>
      obtain h | ⟨c', hj, rfl⟩ := settle_next.1 h
      · obtain ⟨a, ha, rfl⟩ := jump_eq_ok.1 h
        exact .inl ⟨c, rest, a, rfl, rfl, .inr ⟨hz, ha⟩⟩
      · obtain ⟨-, hc⟩ := jump_eq_error.1 hj
        cases hc; simp
    · next hz =>
      cases h
      exact .inl ⟨c, rest, _, rfl, rfl, .inl ⟨by simpa using hz, rfl⟩⟩

theorem execJmp_next {imm : I32} {s t : State} (h : execJmp imm s = .next t) :
    (∃ a, jumpTarget s.ip s.plen imm = some a ∧ t = { s with ip := a }) ∨
    t = raise .invalidJumpTarget s := by
  obtain h | ⟨c', hj, rfl⟩ := settle_next.1 h
  · exact .inl (jump_eq_ok.1 h)
  · obtain ⟨-, hc⟩ := jump_eq_error.1 hj
    cases hc; exact .inr rfl

theorem execRand_next {s t : State} (h : execRand s = .next t) :
    (s.stack.length < s.stackCap ∧ ∃ w hst, t = { s with
      stack := randomValue w :: s.stack, events := s.events ++ [.randReq], ip := s.ip + 1
      host := hst, draws := s.draws + 1 }) ∨
    t = raise .stackOverflow s := by
  unfold execRand at h
  split at h
  · next hl =>
    refine .inl ⟨hl, ?_⟩
    unfold askRandom at h
    rcases hr : s.host.randoms with _ | ⟨w, rest⟩ <;> simp only [hr] at h <;>
      rw [push_ok _ (by simpa using hl)] at h <;> cases h <;> exact ⟨_, _, rfl⟩
  · cases h; exact .inr rfl

/-- The answers `ask InputReq` can give, and the state they leave. -/
theorem askLine_eq_ok {s u : State} {a : InputAnswer} (h : askLine s = .ok (a, u)) : ∃ hst,
    u = { s with
      prompted := false, host := hst, draws := s.draws + 1
      events := s.events ++ (if s.prompted then [] else [.prompt]) ++ [.inputReq] } ∧
    (∀ a' rest, s.host.lines = a' :: rest → a = a' ∧ hst = { s.host with lines := rest }) ∧
    (s.host.lines = [] → s.host.silent = false ∧ hst = s.host) := by
  unfold askLine at h
  split at h
  · next b rest hr =>
    cases h
    refine ⟨{ s.host with lines := rest }, ?_, ?_, by simp [hr]⟩
    · cases hp : s.prompted <;> simp [awaitLine, hp, emit, countDraw]
    · rintro a' rest' hs; rw [hr] at hs; cases hs; exact ⟨rfl, rfl⟩
  · next hr =>
    split at h <;> cases h
    next hq =>
    refine ⟨s.host, ?_, fun a' rest h => (by rw [hr] at h; cases h), fun _ => ⟨Bool.eq_false_of_not_eq_true hq, rfl⟩⟩
    cases hp : s.prompted <;> simp [awaitLine, hp, emit, countDraw]

/-- `ask InputReq` has no answer exactly when the host is silent and no answer is ready. -/
theorem askLine_eq_error {s : State} {e : Stop} :
    askLine s = .error e ↔ s.host.lines = [] ∧ s.host.silent = true ∧ e = .fault .inputWait := by
  unfold askLine
  split
  · next hr => simp [hr]
  · next hr =>
    cases hq : s.host.silent
    · simp
    · simp only [hr, ↓reduceIte, Except.error.injEq, true_and]; exact eq_comm

/-- INPUT with room: what it does with each outcome of `ask InputReq`. -/
theorem execInput_room {s : State} (hl : s.stack.length < s.stackCap) :
    (s.host.lines = [] ∧ s.host.silent = true ∧ execInput s = .fault .inputWait) ∨
    ∃ a hst, (∀ a' rest, s.host.lines = a' :: rest → a = a' ∧ hst = { s.host with lines := rest }) ∧
      (s.host.lines = [] → s.host.silent = false ∧ hst = s.host) ∧
      execInput s = .next { s with
        stack := inputValue a :: s.stack, ip := s.ip + 1, prompted := false, host := hst
        draws := s.draws + 1
        events := s.events ++ (if s.prompted then [] else [.prompt]) ++ [.inputReq] ++
          ((inputWarning a).map fun x => Event.diag x.code s.ip).toList } := by
  unfold execInput
  rw [if_pos hl]
  rcases h : askLine s with e | ⟨a, u⟩
  · obtain ⟨hr, hq, rfl⟩ := askLine_eq_error.1 h
    exact .inl ⟨hr, hq, rfl⟩
  · obtain ⟨hst, rfl, h1, h2⟩ := askLine_eq_ok h
    refine .inr ⟨a, hst, h1, h2, ?_⟩
    rw [ok_bind]; dsimp only
    rw [push_ok _ (by exact hl)]
    rfl

theorem execInput_next {s t : State} (h : execInput s = .next t) :
    (s.stack.length < s.stackCap ∧ ∃ a hst, t = { s with
      stack := inputValue a :: s.stack, ip := s.ip + 1, prompted := false, host := hst
      draws := s.draws + 1
      events := s.events ++ (if s.prompted then [] else [.prompt]) ++ [.inputReq] ++
        ((inputWarning a).map fun x => Event.diag x.code s.ip).toList }) ∨
    (s.stackCap ≤ s.stack.length ∧ t = raise .stackOverflow s) := by
  by_cases hl : s.stack.length < s.stackCap
  · obtain ⟨-, -, hf⟩ | ⟨a, hst, -, -, hn⟩ := execInput_room hl
    · rw [h] at hf; cases hf
    · rw [h] at hn; cases hn; exact .inl ⟨hl, a, hst, rfl⟩
  · rw [execInput, if_neg hl] at h
    cases h; exact .inr ⟨by omega, rfl⟩

theorem execHsave_next {s t : State} (h : execHsave s = .next t) :
    ∃ a hst, t = { s with
      slot := slotAfter a (encodeImage s.vh), ip := s.ip + 1, host := hst, draws := s.draws + 1
      events := s.events ++ [.slotWrite (encodeImage s.vh)] ++
        ((writeWarning a).map fun x => Event.diag x.code s.ip).toList } := by
  cases h
  unfold askWrite
  rcases s.host.writes with _ | ⟨a, rest⟩ <;> exact ⟨_, _, rfl⟩

theorem execHload_next {s t : State} (h : execHload s = .next t) :
    ∃ a hst, t = { s with
      vh := (loadOutcome (delivered s.slot a) s).1, ip := s.ip + 1, host := hst, draws := s.draws + 1
      events := s.events ++ [.slotRead] ++
        ((loadOutcome (delivered s.slot a) s).2.map fun x => Event.diag x.code s.ip).toList } := by
  cases h
  unfold askRead
  rcases s.host.reads with _ | ⟨a, rest⟩ <;> exact ⟨_, _, rfl⟩

/-- Only INPUT touches the flag of its wait, and it clears it: an instruction leaves the flag or clears it. -/
theorem exec_prompted {i : Instr} {s t : State} (h : exec i s = .next t) :
    t.prompted = s.prompted ∨ (i = .input ∧ t.prompted = false) := by
  cases i
  case halt => obtain rfl := execHalt_next h; exact .inl rfl
  case push => obtain ⟨-, rfl⟩ | rfl := execPush_next h <;> exact .inl rfl
  case add => obtain ⟨_, _, _, -, -, rfl⟩ | rfl | ⟨-, rfl⟩ := computed_next h <;> exact .inl rfl
  case sub => obtain ⟨_, _, _, -, -, rfl⟩ | rfl | ⟨-, rfl⟩ := computed_next h <;> exact .inl rfl
  case mul => obtain ⟨_, _, _, -, -, rfl⟩ | rfl | ⟨-, rfl⟩ := computed_next h <;> exact .inl rfl
  case div => obtain ⟨_, _, _, -, -, -, rfl⟩ | rfl | rfl | ⟨-, rfl⟩ := execDiv_next h <;> exact .inl rfl
  case relu => obtain ⟨_, _, -, -, rfl⟩ | rfl | ⟨-, rfl⟩ := execRelu_next h <;> exact .inl rfl
  case gt => obtain ⟨_, _, _, -, -, rfl⟩ | rfl | ⟨-, rfl⟩ := compared_next h <;> exact .inl rfl
  case lt => obtain ⟨_, _, _, -, -, rfl⟩ | rfl | ⟨-, rfl⟩ := compared_next h <;> exact .inl rfl
  case eq => obtain ⟨_, _, _, -, -, rfl⟩ | rfl | ⟨-, rfl⟩ := compared_next h <;> exact .inl rfl
  case print => obtain ⟨_, _, -, rfl⟩ | rfl := execPrint_next h <;> exact .inl rfl
  case gstore => obtain ⟨_, _, _, -, -, rfl⟩ | rfl | rfl := execGstore_next h <;> exact .inl rfl
  case gload => obtain ⟨_, -, -, rfl⟩ | rfl | rfl := execGload_next h <;> exact .inl rfl
  case mkvec => obtain ⟨-, -, -, -, rfl⟩ | rfl | rfl | rfl | rfl := execMkvec_next h <;> exact .inl rfl
  case dot =>
    obtain ⟨_, _, _, _, -, -, rfl⟩ | rfl | rfl | rfl | ⟨-, rfl⟩ := execDot_next h <;> exact .inl rfl
  case jmpf => obtain ⟨_, _, _, -, rfl, -⟩ | rfl | rfl := execJmpf_next h <;> exact .inl rfl
  case jmp => obtain ⟨_, -, rfl⟩ | rfl := execJmp_next h <;> exact .inl rfl
  case rand => obtain ⟨-, _, _, rfl⟩ | rfl := execRand_next h <;> exact .inl rfl
  case input =>
    obtain ⟨-, _, _, rfl⟩ | ⟨-, rfl⟩ := execInput_next h
    · exact .inr ⟨rfl, rfl⟩
    · exact .inl rfl
  case hsave => obtain ⟨_, _, rfl⟩ := execHsave_next h; exact .inl rfl
  case hload => obtain ⟨_, _, rfl⟩ := execHload_next h; exact .inl rfl

/-- The next states of a step: the two that are no instruction's, the truncated operand, or those of the
decoded instruction. -/
theorem step_next {s t : State} (h : step s = .next t) :
    s.engine = .running ∧
    ((decode s.opmap (fetchWindow s) = .endOfProgram ∧ t = haltAtEnd s) ∨
     (∃ b, decode s.opmap (fetchWindow s) = .unknown b ∧ t = raise .unknownOpcode s) ∨
     (∃ m, decode s.opmap (fetchWindow s) = .truncated m ∧ t = raise .decodePastEnd s) ∨
     ∃ i n, decode s.opmap (fetchWindow s) = .insn i n ∧ exec i s = .next t) := by
  unfold step at h
  split at h
  · cases h
  · next hr =>
    refine ⟨hr, ?_⟩
    split at h
    · next hd => cases h; exact .inl ⟨hd, rfl⟩
    · next b hd => cases h; exact .inr (.inl ⟨b, hd, rfl⟩)
    · next m hd => cases h; exact .inr (.inr (.inl ⟨m, hd, rfl⟩))
    · next i n hd => exact .inr (.inr (.inr ⟨i, n, hd, h⟩))

end Sys2Proof.Machine
end

