-- ==== Sys2Proof/Laws/Float.lean ====
section
/-! SUPPORT. What the rounding function can do, said once (40_arith.md R131): its result is the nearest
binary64 value, a tie goes to the even one, it overflows exactly at half an ulp above the largest finite
value, and its sign is the one asked for. -/

namespace Sys2Proof.Machine

@[simp] theorem pow2_eq (k : Nat) : pow2 k = 2 ^ k := by
  rw [pow2, show (18446744073709551616 : Nat) = 2 ^ 64 by norm_num, ← pow_mul, ← pow_add,
    Nat.mod_add_div]

theorem unit_eq : unit = 2 ^ 1074 := pow2_eq 1074

/-- The halving search finds the binary logarithm. -/
theorem ilog2From_spec (f n acc : Nat) (h0 : 0 < n) (hn : n < 2 ^ 2 ^ f) :
    ∃ l, ilog2From f n acc = acc + l ∧ 2 ^ l ≤ n ∧ n < 2 ^ (l + 1) := by
  induction f generalizing n acc with
  | zero =>
    refine ⟨0, by simp [ilog2From], by rw [pow_zero]; omega, by simpa using hn⟩
  | succ f ih =>
    simp only [ilog2From, pow2_eq]
    split
    · next h => exact ih n acc h0 h
    · next h =>
      have hK : 0 < 2 ^ 2 ^ f := by positivity
      have hlt : n / 2 ^ 2 ^ f < 2 ^ 2 ^ f := by
        rw [Nat.div_lt_iff_lt_mul hK, ← pow_add, ← two_mul, ← pow_succ']
        exact hn
      obtain ⟨l, he, h1, h2⟩ := ih (n / 2 ^ 2 ^ f) (acc + 2 ^ f) (Nat.div_pos (by omega) hK) hlt
      refine ⟨l + 2 ^ f, by rw [he]; omega, ?_, ?_⟩
      · rw [pow_add]; exact (Nat.le_div_iff_mul_le hK).1 h1
      · rw [show l + 2 ^ f + 1 = (l + 1) + 2 ^ f by omega, pow_add]
        exact (Nat.div_lt_iff_lt_mul hK).1 h2

theorem ilog2_zero : ilog2 0 = 0 := by decide

theorem ilog2_spec {n : Nat} (h0 : 0 < n) (hn : n < 2 ^ 2 ^ 12) :
    2 ^ ilog2 n ≤ n ∧ n < 2 ^ (ilog2 n + 1) := by
  obtain ⟨l, he, h⟩ := ilog2From_spec 12 n 0 h0 hn
  rw [ilog2, he]; simpa using h

/-! ### Division to the nearest -/

/-- Rounding up happens from the middle on, at the middle only from an odd quotient. -/
theorem divNearestEven_cases (p q : Nat) :
    ((q < 2 * (p % q) ∨ (2 * (p % q) = q ∧ p / q % 2 = 1)) ∧ divNearestEven p q = p / q + 1) ∨
      (2 * (p % q) < q ∧ divNearestEven p q = p / q) ∨
      (2 * (p % q) = q ∧ p / q % 2 = 0 ∧ divNearestEven p q = p / q) := by
  unfold divNearestEven; split <;> omega

/-- No natural number is nearer to `p / q` than the rounded quotient. -/
theorem divNearestEven_le {p q : Nat} (hq : 0 < q) (x : Nat) :
    |((divNearestEven p q * q : Nat) : Int) - p| ≤ |((x * q : Nat) : Int) - p| := by
  have hp := Nat.div_add_mod' p q
  have hr := Nat.mod_lt p hq
  unfold divNearestEven
  generalize p / q = m at *
  generalize p % q = r at *
  have hp' : (m : Int) * q + r = p := by exact_mod_cast hp
  have e2 : ((m : Int) + 1) * q = m * q + q := by ring
  have hlo : (x : Int) ≤ m → (x : Int) * q ≤ m * q := fun hy =>
    mul_le_mul_of_nonneg_right hy (by positivity)
  have hhi : (m : Int) + 1 ≤ x → ((m : Int) + 1) * q ≤ x * q := fun hy =>
    mul_le_mul_of_nonneg_right hy (by positivity)
  have hnear : (r : Int) ≤ |((x * q : Nat) : Int) - p| ∨ (q : Int) - r ≤ |((x * q : Nat) : Int) - p| := by
    push_cast
    rcases le_or_gt ((x : Int)) m with hxm | hxm
    · have := hlo hxm
      rw [abs_sub_comm, abs_of_nonneg (by omega)]; omega
    · have := hhi (by omega)
      rw [abs_of_nonneg (by omega)]; omega
  split
  · push_cast
    rw [e2, abs_of_nonneg (by omega)]
    push_cast at hnear
    omega
  · push_cast
    rw [abs_sub_comm, abs_of_nonneg (by omega)]
    push_cast at hnear
    omega

/-- If another natural number is as near, the rounded quotient is even. -/
theorem divNearestEven_tie {p q : Nat} (hq : 0 < q) {x : Nat} (hx : x ≠ divNearestEven p q)
    (h : |((divNearestEven p q * q : Nat) : Int) - p| = |((x * q : Nat) : Int) - p|) :
    divNearestEven p q % 2 = 0 := by
  have hp := Nat.div_add_mod' p q
  have hr := Nat.mod_lt p hq
  have hp' : ((p / q : Nat) : Int) * q + (p % q : Nat) = p := by exact_mod_cast hp
  unfold divNearestEven at hx h ⊢
  generalize p / q = m at *
  generalize p % q = r at *
  have hlo : (x : Int) ≤ m → (x : Int) * q ≤ m * q := fun hy =>
    mul_le_mul_of_nonneg_right hy (by positivity)
  have hlo' : (x : Int) + 1 ≤ m → ((x : Int) + 1) * q ≤ m * q := fun hy =>
    mul_le_mul_of_nonneg_right hy (by positivity)
  have hhi : (m : Int) + 1 ≤ x → ((m : Int) + 1) * q ≤ x * q := fun hy =>
    mul_le_mul_of_nonneg_right hy (by positivity)
  have hhi' : (m : Int) + 2 ≤ x → ((m : Int) + 2) * q ≤ x * q := fun hy =>
    mul_le_mul_of_nonneg_right hy (by positivity)
  have e1 : ((x : Int) + 1) * q = x * q + q := by ring
  have e2 : ((m : Int) + 1) * q = m * q + q := by ring
  have e3 : ((m : Int) + 2) * q = m * q + 2 * q := by ring
  split at h
  · next hc =>
    rw [if_pos hc] at hx ⊢
    push_cast at h
    rw [e2, abs_of_nonneg (by omega)] at h
    rcases le_or_gt ((x : Int)) m with hxm | hxm
    · have := hlo hxm
      rw [abs_sub_comm, abs_of_nonneg (by omega)] at h
      omega
    · have := hhi' (by omega)
      have := hhi (by omega)
      rw [abs_of_nonneg (by omega)] at h
      omega
  · next hc =>
    rw [if_neg hc] at hx ⊢
    push_cast at h
    rw [abs_sub_comm, abs_of_nonneg (by omega)] at h
    rcases le_or_gt ((x : Int)) m with hxm | hxm
    · have := hlo' (by omega)
      have := hlo hxm
      rw [abs_sub_comm, abs_of_nonneg (by omega)] at h
      omega
    · have := hhi (by omega)
      rw [abs_of_nonneg (by omega)] at h
      omega

/-! ### Packing -/

/-- The sign bit of a packed result. -/
def signBits (neg : Bool) : Nat := if neg then 0x8000000000000000 else 0

theorem toNat_pack (neg : Bool) {bits : Nat} (h : bits ≤ 0x7FF0000000000000) :
    (BitVec.ofNat 64 (signBits neg + bits)).toNat = signBits neg + bits := by
  rw [BitVec.toNat_ofNat, Nat.mod_eq_of_lt]
  cases neg <;> simp only [signBits] <;> norm_num <;> omega

theorem msb_pack (neg : Bool) {bits : Nat} (h : bits ≤ 0x7FF0000000000000) :
    (BitVec.ofNat 64 (signBits neg + bits)).msb = neg := by
  rw [BitVec.msb_eq_decide, toNat_pack neg h]
  cases neg <;> simp [signBits] <;> omega

theorem fields_pack (neg : Bool) {bits : Nat} (h : bits ≤ 0x7FF0000000000000) :
    expField (BitVec.ofNat 64 (signBits neg + bits)) = bits / 0x10000000000000 ∧
      fracField (BitVec.ofNat 64 (signBits neg + bits)) = bits % 0x10000000000000 := by
  rw [expField, fracField, toNat_pack neg h]
  cases neg <;> simp only [signBits] <;> norm_num <;> omega

/-- The bits `k * 2^52 + m` hold the magnitude `m * 2^k`, for a significand `m` of 53 bits, or fewer when
`k` is 0. -/
theorem magnitude_pack (neg : Bool) {k m : Nat} (hm : m ≤ 0x20000000000000)
    (hk : k = 0 ∨ 0x10000000000000 ≤ m) (hb : k * 0x10000000000000 + m < 0x7FF0000000000000) :
    magnitude (BitVec.ofNat 64 (signBits neg + (k * 0x10000000000000 + m))) = m * 2 ^ k := by
  obtain ⟨he, hf⟩ := fields_pack neg hb.le
  rw [magnitude, he, hf]
  rcases Nat.lt_or_ge m 0x10000000000000 with h1 | h1
  · obtain rfl : k = 0 := by omega
    rw [if_pos (by omega)]; simp; omega
  · rcases Nat.lt_or_ge m 0x20000000000000 with h2 | h2
    · have e1 : (k * 0x10000000000000 + m) / 0x10000000000000 = k + 1 := by omega
      have e2 : 0x10000000000000 + (k * 0x10000000000000 + m) % 0x10000000000000 = m := by omega
      rw [e1, e2, if_neg (by omega), pow2_eq, Nat.add_sub_cancel]
    · obtain rfl : m = 0x20000000000000 := by omega
      have e1 : (k * 0x10000000000000 + 0x20000000000000) / 0x10000000000000 = k + 2 := by omega
      have e2 : (k * 0x10000000000000 + 0x20000000000000) % 0x10000000000000 = 0 := by omega
      rw [e1, e2, if_neg (by omega), pow2_eq, show k + 2 - 1 = k + 1 by omega, pow_succ']
      ring

/-- Every magnitude either lies on the grid of `2^k`, or is below `2^52` grid steps. -/
theorem magnitude_grid (a : F64) (k : Nat) :
    (∃ j, magnitude a = j * 2 ^ k) ∨ magnitude a < 0x10000000000000 * 2 ^ k := by
  have hf : fracField a < 0x10000000000000 := Nat.mod_lt _ (by norm_num)
  rw [magnitude]
  split
  · right
    exact hf.trans_le (Nat.le_mul_of_pos_right _ (by positivity))
  · rw [pow2_eq]
    rcases Nat.lt_or_ge (expField a - 1) k with h | h
    · right
      calc (0x10000000000000 + fracField a) * 2 ^ (expField a - 1)
          < (0x10000000000000 * 2) * 2 ^ (expField a - 1) := by
            apply Nat.mul_lt_mul_of_pos_right (by omega) (by positivity)
        _ = 0x10000000000000 * 2 ^ (expField a - 1 + 1) := by rw [pow_succ]; ring
        _ ≤ 0x10000000000000 * 2 ^ k := by
            apply Nat.mul_le_mul_left
            exact Nat.pow_le_pow_right (by norm_num) h
    · left
      obtain ⟨d, hd⟩ := Nat.exists_eq_add_of_le h
      exact ⟨(0x10000000000000 + fracField a) * 2 ^ d, by rw [hd, pow_add]; ring⟩

/-- The magnitude of every value is below `2^2098`, and the largest finite one is known. -/
theorem magnitude_le {a : F64} (ha : isFinite a = true) :
    magnitude a ≤ 0x1FFFFFFFFFFFFF * 2 ^ (971 + 1074) := by
  have hf : fracField a < 0x10000000000000 := Nat.mod_lt _ (by norm_num)
  have he : expField a < 0x800 := Nat.mod_lt _ (by norm_num)
  have he' : expField a ≠ 0x7FF := by simpa [isFinite] using ha
  rw [magnitude]
  split
  · calc fracField a ≤ 0x1FFFFFFFFFFFFF := by omega
      _ ≤ _ := Nat.le_mul_of_pos_right _ (by positivity)
  · rw [pow2_eq]
    exact Nat.mul_le_mul (by omega) (Nat.pow_le_pow_right (by norm_num) (by omega))

/-! ### The rounding function -/

/-- The exponent and significand `roundPack` chooses. -/
theorem roundPack_parts {p q : Nat} (hq : 0 < q) (hpq : p < q * 2 ^ 2 ^ 12) :
    ∃ k m, (∀ neg, roundPack neg p q =
        BitVec.ofNat 64 (signBits neg + min (k * 0x10000000000000 + m) 0x7FF0000000000000)) ∧
      m = divNearestEven p (q * 2 ^ k) ∧ m ≤ 0x20000000000000 ∧
      (k = 0 ∨ (0x10000000000000 ≤ m ∧ 0x10000000000000 * 2 ^ k * q ≤ p)) ∧
      p < 0x20000000000000 * 2 ^ k * q := by
  refine ⟨ilog2 (p / q) - 52, _, fun neg => by simp [roundPack, signBits], rfl, ?_⟩
  have hd : p / q < 2 ^ 2 ^ 12 := by
    rw [Nat.div_lt_iff_lt_mul hq, mul_comm]; exact hpq
  obtain ⟨hk, hlt⟩ : (ilog2 (p / q) - 52 = 0 ∨ 0x10000000000000 * 2 ^ (ilog2 (p / q) - 52) ≤ p / q) ∧
      p / q < 0x20000000000000 * 2 ^ (ilog2 (p / q) - 52) := by
    rcases Nat.eq_zero_or_pos (p / q) with h0 | h0
    · rw [h0]; exact ⟨.inl (by decide), by positivity⟩
    · obtain ⟨h1, h2⟩ := ilog2_spec h0 hd
      generalize ilog2 (p / q) = l at *
      rcases Nat.le_total l 52 with hl | hl
      · refine ⟨.inl (by omega), ?_⟩
        rw [show l - 52 = 0 by omega]
        exact h2.trans_le ((Nat.pow_le_pow_right (by norm_num) (by omega : l + 1 ≤ 53)).trans (by norm_num))
      · obtain ⟨d, rfl⟩ := Nat.exists_eq_add_of_le hl
        rw [show 52 + d - 52 = d by omega]
        refine ⟨.inr ?_, ?_⟩
        · rw [pow_add] at h1; exact h1
        · rw [show 52 + d + 1 = 53 + d by omega, pow_add] at h2; exact h2
  generalize ilog2 (p / q) - 52 = k at *
  have hK : 0 < q * 2 ^ k := by positivity
  have hlt' : p < 0x20000000000000 * 2 ^ k * q := (Nat.div_lt_iff_lt_mul hq).1 hlt
  have hm : p / (q * 2 ^ k) < 0x20000000000000 := by
    rw [Nat.div_lt_iff_lt_mul hK]; calc p < _ := hlt'
      _ = _ := by ring
  have hdn : p / (q * 2 ^ k) ≤ divNearestEven p (q * 2 ^ k) ∧
      divNearestEven p (q * 2 ^ k) ≤ p / (q * 2 ^ k) + 1 := by
    unfold divNearestEven; split <;> omega
  refine ⟨by omega, ?_, hlt'⟩
  rcases hk with hk | hk
  · exact .inl hk
  · refine .inr ?_
    have hle : 0x10000000000000 * 2 ^ k * q ≤ p := (Nat.le_div_iff_mul_le hq).1 hk
    have : 0x10000000000000 ≤ p / (q * 2 ^ k) := by
      rw [Nat.le_div_iff_mul_le hK]; calc _ = 0x10000000000000 * 2 ^ k * q := by ring
        _ ≤ p := hle
    exact ⟨by omega, hle⟩

/-- The sign of a rounded result. -/
theorem roundPack_msb (neg : Bool) (p q : Nat) : (roundPack neg p q).msb = neg :=
  msb_pack neg (Nat.min_le_right _ _)

/-- A rounded result is never a NaN. -/
theorem roundPack_not_nan (neg : Bool) (p q : Nat) : isNaN (roundPack neg p q) = false := by
  have h : roundPack neg p q = BitVec.ofNat 64 (signBits neg +
    min ((ilog2 (p / q) - 52) * 0x10000000000000 + divNearestEven p (q * pow2 (ilog2 (p / q) - 52)))
      0x7FF0000000000000) := rfl
  obtain ⟨he, hf⟩ := fields_pack neg (Nat.min_le_right
    ((ilog2 (p / q) - 52) * 0x10000000000000 + divNearestEven p (q * pow2 (ilog2 (p / q) - 52)))
      0x7FF0000000000000)
  rw [h, isNaN, he, hf]
  simp only [decide_eq_false_iff_not]
  omega

/-- A finite rounded result is on the grid it was rounded to. -/
theorem roundPack_finite {neg : Bool} {p q k m : Nat}
    (h : roundPack neg p q =
      BitVec.ofNat 64 (signBits neg + min (k * 0x10000000000000 + m) 0x7FF0000000000000))
    (hm : m ≤ 0x20000000000000) (hk : k = 0 ∨ 0x10000000000000 ≤ m)
    (hf : isFinite (roundPack neg p q) = true) :
    k * 0x10000000000000 + m < 0x7FF0000000000000 ∧ magnitude (roundPack neg p q) = m * 2 ^ k ∧
      (roundPack neg p q).toNat % 2 = m % 2 := by
  have hb : k * 0x10000000000000 + m < 0x7FF0000000000000 := by
    by_contra hc
    have hmin : min (k * 0x10000000000000 + m) 0x7FF0000000000000 = 0x7FF0000000000000 := by omega
    rw [h, hmin, isFinite, (fields_pack neg le_rfl).1] at hf
    simp at hf
  have hmin : min (k * 0x10000000000000 + m) 0x7FF0000000000000 = k * 0x10000000000000 + m := by omega
  rw [hmin] at h
  refine ⟨hb, by rw [h, magnitude_pack neg hm hk hb], ?_⟩
  rw [h, toNat_pack neg hb.le]
  cases neg <;> simp only [signBits] <;> norm_num <;> omega

/-- No binary64 magnitude is nearer to `p / q` than that of a finite rounded result. -/
theorem roundPack_nearest {neg : Bool} {p q : Nat} (hq : 0 < q) (hpq : p < q * 2 ^ 2 ^ 12)
    (hf : isFinite (roundPack neg p q) = true) (x : F64) :
    |((magnitude (roundPack neg p q) * q : Nat) : Int) - p| ≤ |((magnitude x * q : Nat) : Int) - p| := by
  obtain ⟨k, m, h, rfl, hm, hk, -⟩ := roundPack_parts hq hpq
  obtain ⟨-, hmag, -⟩ := roundPack_finite (h neg) hm (hk.imp_right And.left) hf
  have hK : 0 < q * 2 ^ k := by positivity
  have e : ∀ j, j * 2 ^ k * q = j * (q * 2 ^ k) := fun j => by ring
  rw [hmag, e]
  rcases magnitude_grid x k with ⟨j, hj⟩ | hlt
  · rw [hj, e]; exact divNearestEven_le hK j
  · rcases hk with rfl | ⟨-, hle⟩
    · have := divNearestEven_le (p := p) hK (magnitude x)
      simpa using this
    · refine (divNearestEven_le hK 0x10000000000000).trans ?_
      have h1 : magnitude x * q ≤ 0x10000000000000 * 2 ^ k * q := Nat.mul_le_mul_right _ hlt.le
      rw [← e, abs_sub_comm, abs_of_nonneg (by omega), abs_sub_comm, abs_of_nonneg (by omega)]
      omega

/-- When another binary64 magnitude is as near, the rounded result is the even one. -/
theorem roundPack_tie {neg : Bool} {p q : Nat} (hq : 0 < q) (hpq : p < q * 2 ^ 2 ^ 12)
    (hf : isFinite (roundPack neg p q) = true) {x : F64}
    (hne : magnitude x ≠ magnitude (roundPack neg p q))
    (heq : |((magnitude (roundPack neg p q) * q : Nat) : Int) - p| = |((magnitude x * q : Nat) : Int) - p|) :
    (roundPack neg p q).toNat % 2 = 0 := by
  obtain ⟨k, m, h, rfl, hm, hk, -⟩ := roundPack_parts hq hpq
  obtain ⟨-, hmag, hpar⟩ := roundPack_finite (h neg) hm (hk.imp_right And.left) hf
  have hK : 0 < q * 2 ^ k := by positivity
  have e : ∀ j, j * 2 ^ k * q = j * (q * 2 ^ k) := fun j => by ring
  rw [hpar]
  rw [hmag] at hne
  rw [hmag, e] at heq
  have grid : ∀ j, magnitude x = j * 2 ^ k → divNearestEven p (q * 2 ^ k) % 2 = 0 := by
    intro j hj
    rw [hj, e] at heq
    exact divNearestEven_tie hK (fun hj' => hne (by rw [hj, hj'])) heq
  rcases magnitude_grid x k with ⟨j, hj⟩ | hlt
  · exact grid j hj
  · rcases hk with rfl | ⟨-, hle⟩
    · exact grid (magnitude x) (by simp)
    · exfalso
      have hn := divNearestEven_le (p := p) hK 0x10000000000000
      have h1 : magnitude x * q < 0x10000000000000 * 2 ^ k * q := Nat.mul_lt_mul_of_pos_right hlt hq
      rw [heq, ← e, abs_sub_comm, abs_of_nonneg (by omega), abs_sub_comm, abs_of_nonneg (by omega)] at hn
      omega

/-- Rounding a quotient below an even number `c` gives `c` from the middle of the last step on. -/
theorem divNearestEven_overflow {p d w c : Nat} (hd : 0 < d) (hc2 : c % 2 = 0) (hw : w * 2 + d = 2 * (c * d))
    (hlt : p < c * d) : c ≤ divNearestEven p d ↔ w ≤ p := by
  have hp := Nat.div_add_mod' p d
  have hr := Nat.mod_lt p hd
  have hc := divNearestEven_cases p d
  have hdiv : p / d < c := (Nat.div_lt_iff_lt_mul hd).2 hlt
  generalize divNearestEven p d = n at *
  generalize p / d = x at *
  generalize p % d = r at *
  rcases Nat.lt_or_ge (x + 1) c with hx | hx
  · have h2 := Nat.mul_le_mul_right d (show x + 2 ≤ c by omega)
    have e2 : (x + 2) * d = x * d + 2 * d := by ring
    omega
  · obtain rfl : c = x + 1 := by omega
    have e2 : (x + 1) * d = x * d + d := by ring
    omega

/-- When the chosen exponent and significand reach the exponent `e + 3`: half an ulp above
`(c₁ - 1) * 2^(e + 1)`. -/
theorem parts_overflow {c₀ c₁ c₂ : Nat} (h₁ : c₁ = 2 * c₀) (h₂ : c₂ + 1 = 2 * c₁) (e : Nat) {p q k : Nat}
    (hq : 0 < q) (hm : divNearestEven p (q * 2 ^ k) ≤ c₁)
    (hk : k = 0 ∨ (c₀ ≤ divNearestEven p (q * 2 ^ k) ∧ c₀ * 2 ^ k * q ≤ p))
    (hlt : p < c₁ * 2 ^ k * q) :
    (e + 3) * c₀ ≤ k * c₀ + divNearestEven p (q * 2 ^ k) ↔ c₂ * 2 ^ e * q ≤ p := by
  rcases lt_trichotomy k (e + 1) with hke | rfl | hke
  · have h2 : c₁ * 2 ^ k * q ≤ c₁ * 2 ^ e * q :=
      Nat.mul_le_mul_right _ (Nat.mul_le_mul_left _ (Nat.pow_le_pow_right (by norm_num) (by omega)))
    have h3 : c₁ * 2 ^ e * q ≤ c₂ * 2 ^ e * q :=
      Nat.mul_le_mul_right _ (Nat.mul_le_mul_right _ (by omega))
    have h4 := Nat.mul_le_mul_right c₀ (show k ≤ e by omega)
    have e1 : (e + 3) * c₀ = e * c₀ + 3 * c₀ := by ring
    constructor
    · intro hb
      clear h2 h3 hlt hk
      omega
    · intro hle
      exact absurd (hlt.trans_le (h2.trans (h3.trans hle))) (lt_irrefl _)
  · have hw : c₂ * 2 ^ e * q * 2 + q * 2 ^ (e + 1) = 2 * (c₁ * (q * 2 ^ (e + 1))) := by
      calc _ = (c₂ + 1) * (q * 2 ^ (e + 1)) := by rw [pow_succ]; ring
        _ = _ := by rw [h₂]; ring
    have hlt' : p < c₁ * (q * 2 ^ (e + 1)) := hlt.trans_eq (by ring)
    rw [← divNearestEven_overflow (by positivity) (by omega) hw hlt']
    have e1 : (e + 3) * c₀ = (e + 1) * c₀ + c₁ := by rw [h₁]; ring
    clear hw hlt' hlt hk
    omega
  · obtain ⟨h1, hle⟩ := hk.resolve_left (by omega)
    have hup : c₂ * 2 ^ e * q ≤ c₀ * 2 ^ k * q :=
      calc c₂ * 2 ^ e * q ≤ (c₀ * 2 ^ 2) * 2 ^ e * q :=
            Nat.mul_le_mul_right _ (Nat.mul_le_mul_right _ (by omega))
        _ = c₀ * 2 ^ (e + 2) * q := by ring
        _ ≤ c₀ * 2 ^ k * q :=
            Nat.mul_le_mul_right _ (Nat.mul_le_mul_left _ (Nat.pow_le_pow_right (by norm_num) (by omega)))
    have h4 := Nat.mul_le_mul_right c₀ (show e + 2 ≤ k by omega)
    have e1 : (e + 3) * c₀ = (e + 2) * c₀ + c₀ := by ring
    exact ⟨fun _ => hup.trans hle, fun _ => by clear hup hle hlt hk; omega⟩

/-- A result is rounded to an infinity exactly from half an ulp above the largest finite value on:
`(2^54 - 1) * 2^970` in value, with an exponent larger by 1074 in the unit of `magnitude`. -/
theorem roundPack_overflow {neg : Bool} {p q : Nat} (hq : 0 < q) (hpq : p < q * 2 ^ 2 ^ 12) :
    roundPack neg p q = infOf neg ↔ 0x3FFFFFFFFFFFFF * 2 ^ (970 + 1074) * q ≤ p := by
  obtain ⟨k, m, h, hm', hm, hk, hlt⟩ := roundPack_parts hq hpq
  have hinf : infOf neg = BitVec.ofNat 64 (signBits neg + 0x7FF0000000000000) := by cases neg <;> rfl
  subst hm'
  rw [← parts_overflow (c₀ := 0x10000000000000) rfl rfl (970 + 1074) hq hm hk hlt, h neg, hinf]
  constructor
  · intro he
    have := congrArg BitVec.toNat he
    rw [toNat_pack neg (Nat.min_le_right _ _), toNat_pack neg le_rfl] at this
    omega
  · intro hb
    rw [Nat.min_eq_right (by omega)]

end Sys2Proof.Machine
end

