-- ==== Sys2Proof/Laws/Memory.lean ====
section
/-! SUPPORT. The laws of the program store: a read after a write, and the canonical form. -/

namespace Sys2Proof.Machine

/-- The canonical form as a proposition about the list. -/
theorem Memory.wf_iff (m : Memory) :
    Memory.wf m = true ↔ m.Pairwise (fun c d => c.1 < d.1) ∧ ∀ c ∈ m, c.2 ≠ 0 := by
  simp [Memory.wf, List.pairwise_map]

/-- The program store is in canonical form after reset. -/
theorem Memory.wf_reset : Memory.wf State.reset.prog = true := by decide

/-- An address below every listed one reads as 0. -/
theorem Memory.read_of_lt {m : Memory} {a : Nat} (h : ∀ c ∈ m, a < c.1) : Memory.read m a = 0 := by
  induction m with
  | nil => rfl
  | cons c rest ih =>
    obtain ⟨b, v⟩ := c
    have hb : a < b := h (b, v) (by simp)
    rw [Memory.read, if_neg (by omega)]
    exact ih fun c hc => h c (by simp [hc])

/-- Every listed address after a write is the written one or was listed. -/
theorem Memory.mem_write {m : Memory} {a : Nat} {v : Byte} {c : Host.Cell}
    (h : c ∈ Memory.write m a v) : c ∈ m ∨ (c = (a, v) ∧ v ≠ 0) := by
  induction m with
  | nil => simp only [Memory.write, Memory.entry] at h; split at h <;> simp_all
  | cons d rest ih =>
    obtain ⟨b, w⟩ := d
    simp only [Memory.write, Memory.entry] at h
    split at h <;> split at h <;> simp_all <;> tauto

/-- A write keeps the canonical form. -/
theorem Memory.write_wf {m : Memory} (h : Memory.wf m = true) (a : Nat) (v : Byte) :
    Memory.wf (Memory.write m a v) = true := by
  rw [Memory.wf_iff] at h ⊢
  refine ⟨?_, fun c hc => ?_⟩
  · obtain ⟨h, -⟩ := h
    induction m with
    | nil => simp only [Memory.write, Memory.entry]; split <;> simp
    | cons d rest ih =>
      obtain ⟨b, w⟩ := d
      simp only [List.pairwise_cons] at h
      simp only [Memory.write, Memory.entry]
      split
      · next hab =>
        split
        · simpa using h
        · simp only [List.cons_append, List.nil_append, List.pairwise_cons, List.mem_cons]
          refine ⟨?_, h⟩
          rintro c (rfl | hc)
          · exact hab
          · exact hab.trans (h.1 c hc)
      · split
        · next _ hab =>
          subst hab
          split
          · simpa using h.2
          · simpa using h
        · next h1 h2 =>
          refine List.pairwise_cons.mpr ⟨fun c hc => ?_, ih h.2⟩
          rcases Memory.mem_write hc with hc | ⟨rfl, -⟩
          · exact h.1 c hc
          · simp only; omega
  · rcases Memory.mem_write hc with hc | ⟨rfl, hv⟩
    · exact h.2 c hc
    · exact hv

/-- A read after a write gives the value written, and every other address reads as before. -/
theorem Memory.read_write {m : Memory} (h : Memory.wf m = true) (a : Nat) (v : Byte) (x : Nat) :
    Memory.read (Memory.write m a v) x = if x = a then v else Memory.read m x := by
  rw [Memory.wf_iff] at h
  obtain ⟨h, -⟩ := h
  induction m with
  | nil =>
    simp only [Memory.write, Memory.entry]
    split <;> split <;> simp_all [Memory.read] <;> omega
  | cons d rest ih =>
    obtain ⟨b, w⟩ := d
    simp only [List.pairwise_cons] at h
    have ih := ih h.2
    have hrest : ∀ y, y ≤ b → Memory.read rest y = 0 := fun y hy =>
      Memory.read_of_lt fun c hc => lt_of_le_of_lt hy (h.1 c hc)
    simp only [Memory.write, Memory.entry]
    split
    · next hab =>
      by_cases hx : x = a
      · subst hx
        split
        · next hv => simp [Memory.read, hv, hrest x (by omega)]; omega
        · simp [Memory.read]
      · split <;> simp [Memory.read, Ne.symm hx]
    · split
      · next _ hab =>
        subst hab
        by_cases hx : x = a
        · subst hx; split
          · next hv => simp [hv, hrest x le_rfl]
          · simp [Memory.read]
        · split <;> simp [Memory.read, Ne.symm hx]
      · next h1 h2 =>
        simp only [Memory.read]
        split
        · next hb => subst hb; rw [if_neg (by omega)]
        · exact ih

/-- Storing bytes keeps the canonical form. -/
theorem Memory.writeBytes_wf {m : Memory} (h : Memory.wf m = true) (a : Nat) (bytes : List Byte) :
    Memory.wf (Memory.writeBytes m a bytes) = true := by
  induction bytes generalizing m a with
  | nil => exact h
  | cons v rest ih => exact ih (Memory.write_wf h a v) (a + 1)

/-- What an address reads as after bytes were stored from `a` on. -/
theorem Memory.read_writeBytes {m : Memory} (h : Memory.wf m = true) (a : Nat) (bytes : List Byte)
    (x : Nat) :
    Memory.read (Memory.writeBytes m a bytes) x =
      if a ≤ x ∧ x < a + bytes.length then bytes.getD (x - a) 0 else Memory.read m x := by
  induction bytes generalizing m a with
  | nil => simp [Memory.writeBytes]
  | cons v rest ih =>
    rw [Memory.writeBytes, ih (Memory.write_wf h a v), Memory.read_write h]
    rcases Nat.lt_trichotomy x a with hx | hx | hx
    · simp only [List.length_cons]
      rw [if_neg (by omega), if_neg (by omega), if_neg (by omega)]
    · subst hx; simp
    · obtain ⟨k, rfl⟩ : ∃ k, x = a + 1 + k := ⟨x - (a + 1), by omega⟩
      have h1 : a + 1 + k - (a + 1) = k := by omega
      have h2 : a + 1 + k - a = k + 1 := by omega
      rw [h1, h2]
      simp only [List.length_cons, List.getD_cons_succ]
      by_cases hk : k < rest.length
      · rw [if_pos (by omega), if_pos (by omega)]
      · rw [if_neg (by omega), if_neg (by omega), if_neg (by omega)]

/-- Storing bytes lists no address but the stored ones and those already listed. -/
theorem Memory.mem_writeBytes {m : Memory} {a : Nat} {bytes : List Byte} {c : Host.Cell}
    (h : c ∈ Memory.writeBytes m a bytes) : c ∈ m ∨ (a ≤ c.1 ∧ c.1 < a + bytes.length) := by
  induction bytes generalizing m a with
  | nil => exact .inl h
  | cons v rest ih =>
    rcases ih h with h | h
    · rcases Memory.mem_write h with h | ⟨rfl, -⟩
      · exact .inl h
      · exact .inr (by simp)
    · exact .inr (by simp only [List.length_cons]; omega)

end Sys2Proof.Machine
end

