-- ==== Sys2Proof/Laws/PerInstr.lean ====
section
/-! SUPPORT. Statements made instruction by instruction: the encoding starts with the opcode byte and is as
long as the instruction's format (30_encoding.md R100, R105). -/

namespace Sys2Proof.Laws.EncodingShape

/-- Under every opcode map the first byte is the mnemonic's, the length is that of the format, and it is
1, 5 or 9. -/
def Statement (i : Instr) : Prop :=
  ∀ o : OpMap, (encode o i).head? = some (o.byteOf i.mnemonic) ∧ (encode o i).length = i.length ∧
    (i.length = 1 ∨ i.length = 5 ∨ i.length = 9)

theorem of_length {i : Instr} (h : i.length = 1 ∨ i.length = 5 ∨ i.length = 9) : Statement i := fun o =>
  ⟨rfl, by simp only [encode, List.length_cons, operandBytes_length, Instr.length, Mnemonic.length]; omega, h⟩

theorem halt : Statement .halt := of_length (.inl rfl)
theorem push (lit : F64) : Statement (.push lit) := of_length (.inr (.inr rfl))
theorem add : Statement .add := of_length (.inl rfl)
theorem sub : Statement .sub := of_length (.inl rfl)
theorem mul : Statement .mul := of_length (.inl rfl)
theorem div : Statement .div := of_length (.inl rfl)
theorem print : Statement .print := of_length (.inl rfl)
theorem gstore (imm : I32) : Statement (.gstore imm) := of_length (.inr (.inl rfl))
theorem gload (imm : I32) : Statement (.gload imm) := of_length (.inr (.inl rfl))
theorem mkvec (imm : I32) : Statement (.mkvec imm) := of_length (.inr (.inl rfl))
theorem dot : Statement .dot := of_length (.inl rfl)
theorem relu : Statement .relu := of_length (.inl rfl)
theorem gt : Statement .gt := of_length (.inl rfl)
theorem lt : Statement .lt := of_length (.inl rfl)
theorem eq : Statement .eq := of_length (.inl rfl)
theorem jmpf (imm : I32) : Statement (.jmpf imm) := of_length (.inr (.inl rfl))
theorem jmp (imm : I32) : Statement (.jmp imm) := of_length (.inr (.inl rfl))
theorem rand : Statement .rand := of_length (.inl rfl)
theorem input : Statement .input := of_length (.inl rfl)
theorem hsave : Statement .hsave := of_length (.inl rfl)
theorem hload : Statement .hload := of_length (.inl rfl)

end Sys2Proof.Laws.EncodingShape
end

