-- ==== Sys2Proof/Laws/Rounding.lean ====
section
/-! SUPPORT. Signed values and their order: which values a number can be, the rounding function on signed
values, and the order of binary64 values by their bits. -/

namespace Sys2Proof.Machine

/-! ### Kinds of value -/

theorem scaled_def (x : F64) : scaled x = if x.msb then -(magnitude x : Int) else magnitude x := rfl

@[simp] theorem abs_scaled (x : F64) : |scaled x| = magnitude x := by
  rw [scaled_def]; split <;> simp

@[simp] theorem natAbs_scaled (x : F64) : (scaled x).natAbs = magnitude x := by
  rw [scaled_def]; split <;> simp

/-- Every pattern is finite, an infinity or a NaN, and only one of these. -/
theorem finite_or_inf_or_nan (x : F64) :
    (isFinite x = true ∧ isInf x = false ∧ isNaN x = false) ∨
    (isFinite x = false ∧ isInf x = true ∧ isNaN x = false) ∨
    (isFinite x = false ∧ isInf x = false ∧ isNaN x = true) := by
  simp only [isFinite, isInf, isNaN, decide_eq_true_eq, decide_eq_false_iff_not]; omega

/-- There are two infinities. -/
theorem isInf_iff (x : F64) : isInf x = true ↔ x = infOf x.msb := by
  have e : x.msb = decide (2 ^ 63 ≤ x.toNat) := by rw [BitVec.msb_eq_decide]
  have hx := x.isLt
  refine ⟨fun h => ?_, fun h => by rw [h]; cases x.msb <;> decide⟩
  simp only [isInf, decide_eq_true_eq] at h
  simp only [expField, fracField] at h
  apply BitVec.eq_of_toNat_eq
  rw [e]
  by_cases hh : 2 ^ 63 ≤ x.toNat
  · simp only [hh, decide_true, infOf, if_true]; change x.toNat = 0xFFF0000000000000; omega
  · simp only [hh, decide_false, infOf]; change x.toNat = 0x7FF0000000000000; omega

/-- The zero test is the test of a finite value for magnitude 0. -/
theorem fisZero_iff (b : F64) : fisZero b = true ↔ isFinite b = true ∧ magnitude b = 0 := by
  simp only [fisZero, isFinite, decide_eq_true_eq]
  constructor
  · intro h
    have h1 : expField b = 0 ∧ fracField b = 0 := by simp only [expField, fracField]; omega
    simp only [magnitude, h1.1, h1.2, if_true]; decide
  · rintro ⟨-, h⟩
    simp only [magnitude, pow2_eq] at h
    split at h
    · next h1 => simp only [expField, fracField] at h h1; omega
    · rcases Nat.mul_eq_zero.1 h with h | h
      · omega
      · exact absurd h (by positivity)

theorem fneg_msb (x : F64) : (fneg x).msb = !x.msb := by
  simp only [fneg, BitVec.msb_xor]
  rw [show BitVec.msb (0x8000000000000000 : F64) = true from by decide]; simp

theorem fneg_fields (x : F64) : expField (fneg x) = expField x ∧ fracField (fneg x) = fracField x := by
  have h : (fneg x).toNat % 2 ^ 63 = x.toNat % 2 ^ 63 := by
    simp only [fneg, BitVec.toNat_xor]
    rw [Nat.xor_mod_two_pow]; simp
  simp only [expField, fracField]; constructor <;> omega

theorem fabs_toNat (x : F64) : (fabs x).toNat = x.toNat % 2 ^ 63 := by
  simp only [fabs, BitVec.toNat_and]
  exact Nat.and_two_pow_sub_one_eq_mod x.toNat 63

/-- The bits of a quiet NaN: sign, an all-ones exponent with the quiet bit, payload. -/
theorem quietNaN_toNat (d : BitVec 52) :
    (quietNaN d).toNat = (d.toNat / 2 ^ 51 % 2 * 4096 + 4095) * 2 ^ 51 + d.toNat % 2 ^ 51 := by
  have h := d.isLt
  simp only [quietNaN, BitVec.toNat_append, BitVec.extractLsb'_toNat]
  rw [← Nat.shiftLeft_add_eq_or_of_lt (by simp; exact Nat.mod_lt _ (by norm_num)),
    ← Nat.shiftLeft_add_eq_or_of_lt (by simp)]
  simp [Nat.shiftLeft_eq, Nat.shiftRight_eq_div_pow]

/-! ### Rounding of signed values -/

/-- A finite magnitude is below 2^2098. The exponent is a variable, so that no tactic evaluates it. -/
theorem magnitude_lt {x : F64} (h : isFinite x = true) {k : Nat} (hk : 2098 ≤ k) : magnitude x < 2 ^ k := by
  have h1 := magnitude_le h
  obtain ⟨j, hj⟩ : ∃ j, j = 971 + 1074 := ⟨_, rfl⟩
  rw [← hj] at h1
  refine lt_of_lt_of_le (b := 2 ^ 53 * 2 ^ j)
    (lt_of_le_of_lt h1 (Nat.mul_lt_mul_of_pos_right (by norm_num) (by positivity))) ?_
  rw [← pow_add]
  exact Nat.pow_le_pow_right (by norm_num) (by omega)

/-- The rounded value is an infinity exactly from half an ulp above the largest finite value on. -/
theorem roundPack_isInf {neg : Bool} {p q : Nat} (hq : 0 < q) (hpq : p < q * 2 ^ 2 ^ 12) :
    isInf (roundPack neg p q) = true ↔ 0x3FFFFFFFFFFFFF * 2 ^ (970 + 1074) * q ≤ p := by
  rw [isInf_iff, roundPack_msb]; exact roundPack_overflow hq hpq

/-- A finite rounded value is nearest to the exact signed quotient, and even where another is as near. -/
theorem roundPack_signed {neg : Bool} {p q : Nat} (hq : 0 < q) (hpq : p < q * 2 ^ 2 ^ 12)
    (hf : isFinite (roundPack neg p q) = true) (x : F64) (V : Int)
    (hV : V = if neg then -(p : Int) else p) :
    |scaled (roundPack neg p q) * q - V| ≤ |scaled x * q - V| ∧
    (scaled x ≠ scaled (roundPack neg p q) →
      |scaled (roundPack neg p q) * q - V| = |scaled x * q - V| → (roundPack neg p q).toNat % 2 = 0) := by
  have hmsb := roundPack_msb neg p q
  have hn := roundPack_nearest hq hpq hf
  have ht := fun x => roundPack_tie hq hpq hf (x := x)
  clear hpq
  have hr : scaled (roundPack neg p q) =
      if neg then -(magnitude (roundPack neg p q) : Int) else magnitude (roundPack neg p q) := by
    rw [scaled_def, hmsb]
  generalize roundPack neg p q = r at *
  have e1 : |scaled r * q - V| = |((magnitude r * q : Nat) : Int) - p| := by
    rw [hr, hV]; cases neg
    · simp
    · simp only [if_true]; rw [← abs_neg]; congr 1; push_cast; ring
  have h0 := hn 0
  rw [show magnitude (0 : F64) = 0 by decide] at h0
  have hqi : (0 : Int) < q := by exact_mod_cast hq
  have hpi : (0 : Int) ≤ p := by positivity
  have e0 : |((0 * q : Nat) : Int) - p| = p := by simp
  by_cases hx : x.msb = neg
  · have e2 : |scaled x * q - V| = |((magnitude x * q : Nat) : Int) - p| := by
      rw [scaled_def, hx, hV]; cases neg
      · simp
      · simp only [if_true]; rw [← abs_neg]; congr 1; push_cast; ring
    rw [e1, e2]
    refine ⟨hn x, fun hne he => ht x ?_ he⟩
    intro hm; apply hne; rw [hr, scaled_def, hx, hm]
  · have e2 : |scaled x * q - V| = magnitude x * q + p := by
      have hnn : (0 : Int) ≤ magnitude x * q + p := by positivity
      rw [scaled_def, hV]
      cases neg <;> simp only [Bool.not_eq_false, Bool.not_eq_true] at hx <;> rw [hx]
      · simp only [if_true]; rw [← abs_neg, ← abs_of_nonneg hnn]; simp; congr 1; ring
      · simp only [if_true]; rw [← abs_of_nonneg hnn]; simp
    have hmx : (0 : Int) ≤ magnitude x * q := by positivity
    rw [e1, e2]
    refine ⟨by rw [e0] at h0; omega, fun hne he => ?_⟩
    have hz : (magnitude x : Int) * q = 0 := by rw [e0] at h0; omega
    have hz' : magnitude x = 0 := by
      rcases mul_eq_zero.1 hz with h | h
      · exact_mod_cast h
      · omega
    refine ht x ?_ ?_
    · intro hm; apply hne; rw [hr, scaled_def, ← hm, hz']; cases neg <;> simp
    · rw [he, hz', e0]; simp

/-! ### Order -/

/-- The magnitude with these two fields. -/
def magnitudeOf (e f : Nat) : Nat := if e = 0 then f else (0x10000000000000 + f) * 2 ^ (e - 1)

theorem magnitude_eq (a : F64) : magnitude a = magnitudeOf (expField a) (fracField a) := by
  simp only [magnitude, magnitudeOf, pow2_eq]

theorem magnitudeOf_lt {e1 f1 e2 f2 : Nat} (h1 : f1 < 0x10000000000000)
    (h : e1 < e2 ∨ (e1 = e2 ∧ f1 < f2)) : magnitudeOf e1 f1 < magnitudeOf e2 f2 := by
  rcases h with h | ⟨rfl, h⟩
  · rw [magnitudeOf, magnitudeOf, if_neg (show ¬ e2 = 0 by omega)]
    have hp : 0 < 2 ^ (e2 - 1) := by positivity
    split
    · calc f1 < 0x10000000000000 * 1 := by omega
        _ ≤ 0x10000000000000 * 2 ^ (e2 - 1) := Nat.mul_le_mul_left _ hp
        _ ≤ _ := Nat.mul_le_mul_right _ (by omega)
    · calc (0x10000000000000 + f1) * 2 ^ (e1 - 1) < (0x10000000000000 * 2) * 2 ^ (e1 - 1) :=
            Nat.mul_lt_mul_of_pos_right (by omega) (by positivity)
        _ = 0x10000000000000 * 2 ^ ((e1 - 1) + 1) := by rw [pow_succ]; ring
        _ ≤ 0x10000000000000 * 2 ^ (e2 - 1) :=
            Nat.mul_le_mul_left _ (Nat.pow_le_pow_right (by norm_num) (by omega))
        _ ≤ _ := Nat.mul_le_mul_right _ (by omega)
  · rw [magnitudeOf, magnitudeOf]; split
    · exact h
    · exact Nat.mul_lt_mul_of_pos_right (by omega) (by positivity)

/-- Magnitudes are ordered as the low 63 bits are. -/
theorem magnitude_lt_iff (a b : F64) :
    magnitude a < magnitude b ↔ a.toNat % 0x8000000000000000 < b.toNat % 0x8000000000000000 := by
  have fa : fracField a < 0x10000000000000 := Nat.mod_lt _ (by norm_num)
  have fb : fracField b < 0x10000000000000 := Nat.mod_lt _ (by norm_num)
  have ea : a.toNat % 0x8000000000000000 = expField a * 0x10000000000000 + fracField a := by
    simp only [expField, fracField]; omega
  have eb : b.toNat % 0x8000000000000000 = expField b * 0x10000000000000 + fracField b := by
    simp only [expField, fracField]; omega
  rw [ea, eb, magnitude_eq, magnitude_eq]
  generalize expField a = e1 at *
  generalize expField b = e2 at *
  generalize fracField a = f1 at *
  generalize fracField b = f2 at *
  clear ea eb
  refine ⟨fun h => ?_, fun h => magnitudeOf_lt fa (by omega)⟩
  by_contra hc
  have : (e2 < e1 ∨ (e2 = e1 ∧ f2 < f1)) ∨ (e1 = e2 ∧ f1 = f2) := by omega
  rcases this with h' | ⟨rfl, rfl⟩
  · exact absurd (magnitudeOf_lt fb h') (by omega)
  · omega

/-- The order of the keys is the order of the values. -/
theorem orderKey_lt_iff (a b : F64) : orderKey a < orderKey b ↔ scaled a < scaled b := by
  have h1 := magnitude_lt_iff a b
  have h2 := magnitude_lt_iff b a
  have h3 : 0 < magnitude a ↔ 0 < a.toNat % 0x8000000000000000 := by
    have := magnitude_lt_iff 0 a; rw [show magnitude (0 : F64) = 0 by decide] at this; simpa using this
  have h4 : 0 < magnitude b ↔ 0 < b.toNat % 0x8000000000000000 := by
    have := magnitude_lt_iff 0 b; rw [show magnitude (0 : F64) = 0 by decide] at this; simpa using this
  simp only [orderKey, scaled_def]
  generalize a.toNat % 0x8000000000000000 = x at *
  generalize b.toNat % 0x8000000000000000 = y at *
  generalize magnitude a = u at *
  generalize magnitude b = v at *
  cases a.msb <;> cases b.msb <;> simp only [if_true, if_false, Bool.false_eq_true] <;> omega

end Sys2Proof.Machine
end

