-- ==== Sys2Proof/Machine/Asm.lean ====
section
/-! DEFINITION. The spec's assembly notation, from text to program bytes (30_encoding.md R111, R112, R114).
It is a notation and no part of the machine: no step uses it. -/

namespace Sys2Proof.Machine

/-- The mnemonic in lower case and the aliases the assembler accepts (30_encoding.md R114). -/
def asmNames : Mnemonic → List String
  | .halt => ["halt"]
  | .push => ["push"]
  | .add => ["add"]
  | .sub => ["sub"]
  | .mul => ["mul"]
  | .div => ["div"]
  | .print => ["print"]
  | .gstore => ["gstore", "store"]
  | .gload => ["gload", "load"]
  | .mkvec => ["mkvec", "make-vector"]
  | .dot => ["dot", "dot-product"]
  | .relu => ["relu"]
  | .gt => ["gt", "greater-than"]
  | .lt => ["lt", "less-than"]
  | .eq => ["eq", "equal"]
  | .jmpf => ["jmpf", "jump-if-false"]
  | .jmp => ["jmp", "jump"]
  | .rand => ["rand", "random"]
  | .input => ["input", "read-input"]
  | .hsave => ["hsave", "save-heap", "save"]
  | .hload => ["hload", "load-heap"]

/-- The mnemonic a word spells, in any case (30_encoding.md R111); DESIGN CHOICE (log 24): an alias too. -/
def asmMnemonic (word : List Char) : Option Mnemonic :=
  Mnemonic.all.find? fun m => (asmNames m).any fun n => n.toList == word.map Char.toLower

/-! ### Numerals (30_encoding.md R112) -/

/-- A non-empty run of digits. -/
def asmNat (w : List Char) : Option Nat :=
  if w ≠ [] ∧ w.all Char.isDigit then
    some (w.foldl (fun n c => 10 * n + (c.toNat - '0'.toNat)) 0)
  else none

/-- An optional sign and what follows it. -/
def asmSign : List Char → Bool × List Char
  | '-' :: rest => (true, rest)
  | '+' :: rest => (false, rest)
  | w => (false, w)

/-- A decimal integer. DESIGN CHOICE (log 24), where R112 is silent: like the literal of PUSH it may carry a
`+` sign as well as a `-` sign. -/
def asmInt (w : List Char) : Option Int :=
  (asmNat (asmSign w).2).map fun n => if (asmSign w).1 then -(n : Int) else n

/-- A decimal integer in `-2^31 .. 2^31 - 1`. -/
def asmI32 (w : List Char) : Option I32 :=
  match asmInt w with
  | some k => if -2147483648 ≤ k ∧ k ≤ 2147483647 then some (BitVec.ofInt 32 k) else none
  | none => none

/-- The value of a hexadecimal digit. -/
def asmHexDigit (c : Char) : Option Nat :=
  if c.isDigit then some (c.toNat - '0'.toNat)
  else if 'a' ≤ c.toLower ∧ c.toLower ≤ 'f' then some (c.toLower.toNat - 'a'.toNat + 10)
  else none

/-- A run of hexadecimal digits, most significant first. -/
def asmHex (w : List Char) : Option Nat :=
  w.foldlM (fun n c => (asmHexDigit c).map fun d => 16 * n + d) 0

/-- The binary64 value nearest to `n * 10 ^ e`, negated if `neg`. -/
def asmScaled (neg : Bool) (n : Nat) (e : Int) : F64 :=
  if 0 ≤ e then roundPack neg (n * 10 ^ e.toNat * unit) 1
  else roundPack neg (n * unit) (10 ^ (-e).toNat)

/-- Digits with an optional fraction: all digits as one number, and how many follow the point. -/
def asmMantissa (w : List Char) : Option (Nat × Nat) :=
  match w.splitOn '.' with
  | [whole] => (asmNat whole).map fun n => (n, 0)
  | [whole, frac] =>
    if whole ≠ [] ∧ frac ≠ [] then (asmNat (whole ++ frac)).map fun n => (n, frac.length) else none
  | _ => none

/-- An optional sign, digits, an optional fraction, an optional exponent. -/
def asmDecimal (w : List Char) : Option F64 :=
  match (asmSign w).2.splitOnP (fun c => c.toLower = 'e') with
  | [mant] => (asmMantissa mant).map fun p => asmScaled (asmSign w).1 p.1 (-(p.2 : Int))
  | [mant, exp] =>
    match asmMantissa mant, asmInt exp with
    | some p, some e => some (asmScaled (asmSign w).1 p.1 (e - p.2))
    | _, _ => none
  | _ => none

/-- The literal of PUSH: `inf`, `-inf`, `nan`, `0x` and 16 hexadecimal digits, or a decimal numeral. The
sign and payload of `nan` are a free value, and that it is a quiet NaN, the same at each place of every text,
is a DESIGN CHOICE (log 22). -/
def asmLiteral (w : List Char) : Option F64 :=
  if w = "inf".toList then some (infOf false)
  else if w = "-inf".toList then some (infOf true)
  else if w = "nan".toList then some (quietNaN Config.asmNanBits)
  else
    match w with
    | '0' :: 'x' :: digits =>
      if digits.length = 16 then (asmHex digits).map (BitVec.ofNat 64) else none
    | _ => asmDecimal w

/-! ### Statements and programs (30_encoding.md R111) -/

/-- A statement: an optional label, and an optional mnemonic with its operand word. -/
structure AsmStatement where
  label : Option (List Char)
  insn  : Option (Mnemonic × Option (List Char))
  deriving DecidableEq, Repr

/-- The text without comments, which run from `#` to the end of the line. -/
def asmStrip : Bool → List Char → List Char
  | _, [] => []
  | inComment, c :: rest =>
    if c = '\n' then c :: asmStrip false rest
    else if inComment || c = '#' then asmStrip true rest
    else c :: asmStrip false rest

/-- The words of a statement; a colon ends a word. -/
def asmWords (w : List Char) : List (List Char) :=
  ((w.flatMap fun c => if c = ':' then [c, ' '] else [c]).splitOnP Char.isWhitespace).filter (· ≠ [])

/-- The mnemonic and operand of a statement. -/
def asmInsn : List (List Char) → Option (Option (Mnemonic × Option (List Char)))
  | [] => some none
  | [name] => (asmMnemonic name).map fun m => some (m, none)
  | [name, operand] => (asmMnemonic name).map fun m => some (m, some operand)
  | _ => none

/-- One statement from its words. DESIGN CHOICE (log 23), where R111 writes only `name:`: any characters before
the first word's colon are a label's name, and so is the empty name of a lone colon. -/
def asmStatement : List (List Char) → Option AsmStatement
  | [] => some { label := none, insn := none }
  | first :: rest =>
    if first.getLast? = some ':' then
      (asmInsn rest).map fun i => { label := some first.dropLast, insn := i }
    else (asmInsn (first :: rest)).map fun i => { label := none, insn := i }

/-- The bytes a statement takes; statements follow each other without padding. -/
def AsmStatement.size (t : AsmStatement) : Nat :=
  match t.insn with
  | some (m, _) => m.length
  | none => 0

/-- The address of each label. -/
def asmLabels : Nat → List AsmStatement → List (List Char × Nat)
  | _, [] => []
  | addr, t :: rest =>
    (match t.label with
      | some name => [(name, addr)]
      | none => []) ++ asmLabels (addr + t.size) rest

/-- The offset of a jump at `addr`: a decimal integer as it stands, or a label's address relative to the
end of the jump (30_encoding.md R112). DESIGN CHOICE (log 23), where R112 is silent: of two statements with
one label the first counts, a word spelt like a decimal integer is an offset even if it is also a label, and
labels are compared letter for letter. -/
def asmOffset (labels : List (List Char × Nat)) (addr : Nat) (w : List Char) : Option I32 :=
  match asmI32 w with
  | some k => some k
  | none => (labels.lookup w).map fun a => BitVec.ofInt 32 ((a : Int) - (addr + 5))

/-- The instruction a statement at `addr` stands for. -/
def asmOperand (labels : List (List Char × Nat)) (addr : Nat) (m : Mnemonic) :
    Option (List Char) → Option Instr
  | none => if m.operandLength = 0 then some (instrOf m []) else none
  | some w =>
    match m with
    | .push => (asmLiteral w).map .push
    | .gstore => (asmI32 w).map .gstore
    | .gload => (asmI32 w).map .gload
    | .mkvec => (asmI32 w).map .mkvec
    | .jmpf => (asmOffset labels addr w).map .jmpf
    | .jmp => (asmOffset labels addr w).map .jmp
    | .halt | .add | .sub | .mul | .div | .print | .dot | .relu | .gt | .lt | .eq
    | .rand | .input | .hsave | .hload => none

/-- The bytes of the statements from `addr` on. -/
def asmBytes (o : OpMap) (labels : List (List Char × Nat)) : Nat → List AsmStatement → Option (List Byte)
  | _, [] => some []
  | addr, t :: rest =>
    match t.insn with
    | none => asmBytes o labels addr rest
    | some (m, operand) =>
      match asmOperand labels addr m operand, asmBytes o labels (addr + m.length) rest with
      | some i, some bytes => some (encode o i ++ bytes)
      | _, _ => none

/-- The program bytes of a text: statements separated by `;` or line ends, encoded from address 0
(30_encoding.md R111). `none` if the text is not in the notation. -/
def assemble (o : OpMap) (text : String) : Option (List Byte) :=
  match ((asmStrip false text.toList).splitOnP fun c => c = ';' || c = '\n').mapM
      (fun t => asmStatement (asmWords t)) with
  | some statements => asmBytes o (asmLabels 0 statements) 0 statements
  | none => none

end Sys2Proof.Machine
end

