-- ==== Sys2Proof/Tests/Slice0.lean ====
section
/-! SUPPORT. Tests against the words, vectors and images of 95_test_vectors.md, smoke tests of the
well-formedness checks, and for each obligation with hypotheses a witness that meets them. -/

namespace Sys2Proof.Tests

open Sys2Proof.Machine

/-! ### Small states

Stacks are written top first, as `State.stack` holds them; the vectors' tables write them bottom first. -/

/-- A core of few cells. -/
def tiny : Config := { progCap := 64, stackCap := 3, globalCap := 4, heapCap := 4, vecCap := 2 }

/-- The tiny core with a program, after reset, with this stack. -/
def core (program : List Byte) (stack : List F64 := []) : State :=
  { State.resetWith tiny with
    prog := Memory.writeBytes [] 0 program, plen := program.length, stack := stack }

/-- The state after one step, if there is one. -/
def after (s : State) : Option State :=
  match step s with
  | .next t => some t
  | .fault _ | .refused _ => none

/-- What a test looks at after one step: stack, instruction pointer, cause, events. -/
def view (s : State) : Option (List F64 × Nat × Cause × List Event) :=
  (after s).map fun t => (t.stack, t.ip, t.cause, t.events)

/-- The stack after one step. -/
def stackAfter (s : State) : Option (List F64) := (after s).map State.stack

/-- The heap of section 2.8: vectors `[1.5, -2.0]` and `[0.25]`, one free cell. -/
def heap28 : VectorHeap where
  hp := 3
  vc := 2
  cells := [0x3FF8000000000000, 0xC000000000000000, 0x3FD0000000000000, 0]
  table := [{ size := 2, base := 0 }, { size := 1, base := 2 }]

/-- The image of section 2.8, byte by byte. -/
def img : List Byte :=
  [0x03, 0, 0, 0, 0x02, 0, 0, 0] ++
  [0, 0, 0, 0, 0, 0, 0xF8, 0x3F] ++ [0, 0, 0, 0, 0, 0, 0, 0xC0] ++
  [0, 0, 0, 0, 0, 0, 0xD0, 0x3F] ++ [0, 0, 0, 0, 0, 0, 0, 0] ++
  [0x02, 0, 0, 0, 0, 0, 0, 0] ++ [0x01, 0, 0, 0, 0x02, 0, 0, 0]

/-- The invariant as a test that evaluates. -/
def invCheck (s : State) : Bool :=
  s.config.WellFormed && decide (s.engine = .running ↔ s.cause = .none) && Memory.wf s.prog &&
    s.prog.all (fun c => decide (c.1 < s.plen)) && decide (s.ip ≤ s.plen ∧ s.plen ≤ s.progCap) &&
    decide (s.stack.length ≤ s.stackCap) && heapOk s.vh &&
    decide (s.prompted = true → s.engine = .running ∧
      decode s.opmap (fetchWindow s) = .insn .input 1 ∧ s.stack.length < s.stackCap)

theorem inv_of_check {s : State} (h : invCheck s = true) : Inv s := by
  simp only [invCheck, Bool.and_eq_true, decide_eq_true_eq, List.all_eq_true] at h
  obtain ⟨⟨⟨⟨⟨⟨⟨h1, h2⟩, h3⟩, h4⟩, h5⟩, h6⟩, h7⟩, h8⟩ := h
  exact ⟨h1, h2, h3, h4, h5.1, h5.2, h6, h7, h8⟩

/-- A step that is known from its view. -/
theorem step_of_after {s t : State} (h : after s = some t) : step s = .next t := by
  unfold after at h
  split at h <;> simp_all

/-! ### Well-formedness: each check refuses an ill-formed term (00_scope.md R5) -/

theorem test_wf_default : Config.default.WellFormed = true ∧ tiny.WellFormed = true := by decide
theorem test_wf_opmap_duplicate : ({ jmp := 0x00 } : OpMap).WellFormed = false := by decide
theorem test_wf_config_opmap : ({ opmap := { hload := 0x13 } } : Config).WellFormed = false := by decide
theorem test_wf_progCap : ({ progCap := 2147483643 } : Config).WellFormed = false ∧
    ({ progCap := 2147483642 } : Config).WellFormed = true := by decide
theorem test_wf_stackCap : ({ stackCap := 0 } : Config).WellFormed = false := by decide
theorem test_wf_globalCap : ({ globalCap := 2147483648 } : Config).WellFormed = false := by decide
theorem test_wf_heapCap : ({ heapCap := 0 } : Config).WellFormed = false ∧
    ({ heapCap := 2147483647 } : Config).WellFormed = true := by decide
theorem test_wf_vecCap : ({ vecCap := 0 } : Config).WellFormed = false := by decide
/-- Every operand pattern is well-formed, also one every execution rejects (30_encoding.md R107). -/
theorem test_wf_instr : (Instr.gstore (-1)).WellFormed = true := by decide

/-! ### Decoding: a word of every instruction, from the tables of 30_encoding.md R100, R106 -/

theorem test_decode_plain :
    decode .default [0x00] = .insn .halt 1 ∧ decode .default [0x02] = .insn .add 1 ∧
    decode .default [0x03] = .insn .sub 1 ∧ decode .default [0x04] = .insn .mul 1 ∧
    decode .default [0x05] = .insn .div 1 ∧ decode .default [0x06] = .insn .print 1 ∧
    decode .default [0x0A] = .insn .dot 1 ∧ decode .default [0x0B] = .insn .relu 1 ∧
    decode .default [0x0C] = .insn .gt 1 ∧ decode .default [0x0D] = .insn .lt 1 ∧
    decode .default [0x0E] = .insn .eq 1 ∧ decode .default [0x11] = .insn .rand 1 ∧
    decode .default [0x12] = .insn .input 1 ∧ decode .default [0x13] = .insn .hsave 1 ∧
    decode .default [0x14] = .insn .hload 1 := by decide

/-- Vector E14: the literal's bytes, lowest address first. -/
theorem test_decode_push : decode .default [0x01, 0x95, 0xD6, 0x26, 0xE8, 0x0B, 0x2E, 0x11, 0x3E] =
    .insn (.push 0x3E112E0BE826D695) 9 := by decide

/-- Vectors E9 to E11, C2, and the GLOAD of program P4. -/
theorem test_decode_immediate :
    decode .default [0x07, 0xFF, 0xFF, 0xFF, 0xFF] = .insn (.gstore (-1)) 5 ∧
    decode .default [0x08, 0x01, 0x00, 0x00, 0x00] = .insn (.gload 1) 5 ∧
    decode .default [0x09, 0x02, 0x01, 0x00, 0x00] = .insn (.mkvec 258) 5 ∧
    decode .default [0x0F, 0x29, 0x00, 0x00, 0x00] = .insn (.jmpf 41) 5 ∧
    decode .default [0x10, 0x00, 0x00, 0x00, 0x80] = .insn (.jmp (-2147483648)) 5 := by decide

/-- Vectors E1, E3, E4, E5, E7, E8. -/
theorem test_decode_other :
    decode .default [] = .endOfProgram ∧ decode .default [0x15] = .unknown 0x15 ∧
    decode .default [0xFF] = .unknown 0xFF ∧
    decode .default [0x01, 0, 0, 0, 0, 0, 0, 0] = .truncated .push ∧
    decode .default [0x01] = .truncated .push ∧
    decode .default [0x08, 0x03, 0x00, 0x00] = .truncated .gload := by decide

/-- Another injective map: the bytes of HALT and ADD exchanged. -/
theorem test_decode_other_map :
    decode { halt := 0x02, add := 0x00 } [0x00] = .insn .add 1 := by decide

/-- The encoder's bytes: E6 and C10. -/
theorem test_encode :
    encode .default (.push 0x4000000000000000) = [0x01, 0, 0, 0, 0, 0, 0, 0, 0x40] ∧
    encode .default (.jmp (-15)) = [0x10, 0xF1, 0xFF, 0xFF, 0xFF] := by decide

/-- Words as the opcode table numbers their bits: the first byte is bits 7:0. -/
theorem test_table_word :
    decodeTableWord 8 0x02 = some .add ∧ decodeTableWord 40 0x0000010209 = some (.mkvec 258) ∧
    decodeTableWord 72 0x400000000000000001 = some (.push 0x4000000000000000) ∧
    decodeTableWord 8 0x15 = none := by decide

/-- A placed word is the first instruction after reset (vector E6). -/
theorem test_withFetchWord :
    stackAfter (State.reset.withFetchWord 72 0x400000000000000001) = some [0x4000000000000000] := by
  decide

/-! ### Numbers: vectors A1 to A19 -/

theorem test_fadd (nan : F64) :
    fadd nan 0x3FB999999999999A 0x3FC999999999999A = 0x3FD3333333333334 ∧
    fadd nan 0x7FE1CCF385EBC8A0 0x7FE1CCF385EBC8A0 = 0x7FF0000000000000 ∧
    fadd nan 0 0x8000000000000000 = 0 ∧
    fadd nan 0x8000000000000000 0x8000000000000000 = 0x8000000000000000 ∧
    fadd nan 0x7FF0000000000000 0xFFF0000000000000 = nan ∧
    fsub nan 0x4000000000000000 0x4008000000000000 = 0xBFF0000000000000 := by
  refine ⟨?_, ?_, ?_, ?_, ?_, ?_⟩ <;> rfl

theorem test_fmul (nan : F64) :
    fmul nan 0x4000000000000000 0x4008000000000000 = 0x4018000000000000 ∧
    fmul nan 0xC000000000000000 0 = 0x8000000000000000 ∧
    fmul nan 0x0000000000000001 0x3FE0000000000000 = 0 := by
  refine ⟨?_, ?_, ?_⟩ <;> rfl

theorem test_fdiv (nan : F64) :
    fdiv nan 0x3FF0000000000000 0x4008000000000000 = 0x3FD5555555555555 ∧
    fdiv nan 0x3FF0000000000000 0x0000000000000001 = 0x7FF0000000000000 ∧
    fdiv nan 0xBFF0000000000000 0x7FF0000000000000 = 0x8000000000000000 := by
  refine ⟨?_, ?_, ?_⟩ <;> rfl


/-! ### Steps: one or two vectors for each instruction -/

/-- Vectors E6, A25, A23. -/
theorem test_push :
    view (core [0x01, 0x01, 0, 0, 0, 0, 0, 0xF0, 0x7F]) = some ([0x7FF0000000000001], 9, .none, []) := by
  decide
theorem test_push_full :
    view (core [0x01, 0, 0, 0, 0, 0, 0, 0xF0, 0x3F] [3, 2, 1]) =
      some ([3, 2, 1], 0, .stackOverflow, [.diag 12 0]) := by decide
/-- A1, A20. -/
theorem test_add :
    view (core [0x02] [0x4008000000000000, 0x4000000000000000]) =
      some ([0x4014000000000000], 1, .none, []) := by decide
theorem test_add_underflow :
    view (core [0x02] [0x3FF0000000000000]) =
      some ([0x3FF0000000000000], 0, .stackUnderflow, [.diag 13 0]) := by decide
/-- A7. -/
theorem test_sub : stackAfter (core [0x03] [0x4008000000000000, 0x4000000000000000]) =
    some [0xBFF0000000000000] := by decide
/-- A9. -/
theorem test_mul : stackAfter (core [0x04] [0x4008000000000000, 0x4000000000000000]) =
    some [0x4018000000000000] := by decide
/-- A12, A15. -/
theorem test_div : stackAfter (core [0x05] [0x4008000000000000, 0x4018000000000000]) =
    some [0x4000000000000000] := by decide
theorem test_div_zero :
    view (core [0x05] [0x8000000000000000, 0x3FF0000000000000]) =
      some ([0x8000000000000000, 0x3FF0000000000000], 0, .divisionByZero, [.diag 5 0]) := by decide
/-- T1, T3, T5, T8. -/
theorem test_relu :
    stackAfter (core [0x0B] [0xC014000000000000]) = some [0] ∧
    stackAfter (core [0x0B] [0x8000000000000000]) = some [0] ∧
    stackAfter (core [0x0B] [0xFFF8000000000000]) = some [0] ∧
    stackAfter (core [0x0B] [0x0000000000000001]) = some [0x0000000000000001] := by decide
/-- T19, T16. -/
theorem test_gt :
    stackAfter (core [0x0C] [0x4000000000000000, 0x4008000000000000, 0x4022000000000000]) =
      some [0x3FF0000000000000, 0x4022000000000000] ∧
    stackAfter (core [0x0C] [0x3FF0000000000000, 0x7FF8000000000000]) = some [0] := by decide
/-- T13, T18, T15. -/
theorem test_lt :
    stackAfter (core [0x0D] [0x4008000000000000, 0x4000000000000000]) = some [0x3FF0000000000000] ∧
    stackAfter (core [0x0D] [0x7FF0000000000000, 0xFFF0000000000000]) = some [0x3FF0000000000000] ∧
    stackAfter (core [0x0D] [0x8000000000000000, 0]) = some [0] := by decide
/-- Q1 to Q5, Q8, Q12, Q18: `a` below, `b` on top. -/
theorem test_eq :
    stackAfter (core [0x0E] [0, 0x3E112E0BE826D695]) = some [0] ∧
    stackAfter (core [0x0E] [0, 0x3E110210E863E3CC]) = some [0x3FF0000000000000] ∧
    stackAfter (core [0x0E] [0x3E112E0BE826D695, 0]) = some [0] ∧
    stackAfter (core [0x0E] [0, 0x3E112E0BE826D694]) = some [0x3FF0000000000000] ∧
    stackAfter (core [0x0E] [0x3FF0000000000000, 0x3FF000000044B830]) = some [0] ∧
    stackAfter (core [0x0E] [0x3FE0000000000000, 0x3FE000000089705F]) = some [0x3FF0000000000000] ∧
    stackAfter (core [0x0E] [0x4160000000000001, 0x4160000000000000]) = some [0] ∧
    stackAfter (core [0x0E] [0x000FFFFFFFFFFFFF, 0x0000000000000001]) = some [0x3FF0000000000000] := by
  decide
/-- Q17: an infinity against 1.0. -/
theorem test_eq_inf : stackAfter (core [0x0E] [0x3FF0000000000000, 0x7FF0000000000000]) = some [0] := by
  decide
/-- G1, X2. -/
theorem test_gstore :
    (after (core [0x07, 3, 0, 0, 0] [0x401E000000000000])).map (fun t => (t.globals, t.stack, t.ip)) =
      some ([0, 0, 0, 0x401E000000000000], [], 5) := by decide
theorem test_gstore_order : view (core [0x07, 4, 0, 0, 0]) = some ([], 0, .invalidGlobalIndex, [.diag 6 0]) := by
  decide
/-- G2, X3. -/
theorem test_gload :
    stackAfter { core [0x08, 3, 0, 0, 0] with globals := [0, 0, 0, 0x401E000000000000] } =
      some [0x401E000000000000] := by decide
theorem test_gload_order :
    view (core [0x08, 0xFF, 0xFF, 0xFF, 0xFF] [3, 2, 1]) =
      some ([3, 2, 1], 0, .invalidGlobalIndex, [.diag 6 0]) := by decide
/-- The second MKVEC of section 2.8, and X5. -/
theorem test_mkvec :
    (after { core [0x09, 1, 0, 0, 0] [0x3FD0000000000000, 0] with
      vh := { hp := 2, vc := 1, cells := [0x3FF8000000000000, 0xC000000000000000, 0, 0],
              table := [{ size := 2, base := 0 }, { size := 0, base := 0 }] } }).map
        (fun t => (t.stack, t.vh, t.ip)) =
      some ([0x3FF0000000000000, 0], heap28, 5) := by decide
theorem test_mkvec_order :
    view { core [0x09, 2, 0, 0, 0] with vh := heap28 } = some ([], 0, .outOfMemory, [.diag 9 0]) ∧
    view { core [0x09, 1, 0, 0, 0] with vh := heap28 } = some ([], 0, .tooManyVectors, [.diag 10 0]) := by
  decide
/-- V9: `[1.0, 2.0]` and `[3.0, 4.0]`; V24. -/
theorem test_dot :
    view { core [0x0A] [0x3FF0000000000000, 0] with
      vh := { hp := 4, vc := 2,
              cells := [0x3FF0000000000000, 0x4000000000000000, 0x4008000000000000, 0x4010000000000000],
              table := [{ size := 2, base := 0 }, { size := 2, base := 2 }] } } =
      some ([0x4026000000000000], 1, .none, []) := by decide
theorem test_dot_order :
    view { core [0x0A] [0x4000000000000000, 0] with vh := heap28 } =
      some ([0x4000000000000000, 0], 0, .invalidVectorHandle, [.diag 7 0]) ∧
    view { core [0x0A] [0x3FF0000000000000, 0] with vh := heap28 } =
      some ([0x3FF0000000000000, 0], 0, .vectorSizeMismatch, [.diag 8 0]) := by decide
/-- V12 to V16: rounding of each product and of each sum, in ascending order. -/
theorem test_dot_rounding :
    dotEngine 0x7FF8000000000000 [0x4341C37937E08000, 0x3FF0000000000000, 0xC341C37937E08000]
      [0x3FF0000000000000, 0x3FF0000000000000, 0x3FF0000000000000] = 0 ∧
    dotEngine 0x7FF8000000000000 [0x4341C37937E08000, 0xC341C37937E08000, 0x3FF0000000000000]
      [0x3FF0000000000000, 0x3FF0000000000000, 0x3FF0000000000000] = 0x3FF0000000000000 ∧
    dotEngine 0x7FF8000000000000 [0xBFF0000000000000, 0x3FF0000000400000] [0x3FF0000000000000, 0x3FEFFFFFFF800000] = 0 ∧
    dotEngine 0x7FF8000000000000 [0x8000000000000000] [0x3FF0000000000000] = 0 ∧
    dotEngine 0x7FF8000000000000 [0x3FB999999999999A, 0x3FC999999999999A, 0x3FD3333333333333]
      [0x3FB999999999999A, 0x3FC999999999999A, 0x3FD3333333333333] = 0x3FC1EB851EB851EC := by
  decide
/-- C9 and C3 (a zero of either sign jumps, here to `plen`), C5, C6. -/
theorem test_jmpf :
    view (core [0x0F, 0, 0, 0, 0] [0x8000000000000000]) = some ([], 5, .none, []) ∧
    view (core [0x0F, 1, 0, 0, 0, 0x00] [0]) = some ([], 6, .none, []) ∧
    view (core [0x0F, 100, 0, 0, 0] [0x0000000000000001]) = some ([], 5, .none, []) := by
  refine ⟨?_, ?_, ?_⟩ <;> decide
theorem test_jmpf_outside :
    view (core [0x0F, 100, 0, 0, 0] [0]) = some ([0], 0, .invalidJumpTarget, [.diag 15 0]) := by decide
/-- C14, C11; C12, C13, C15. -/
theorem test_jmp :
    view (core [0x10, 0xFB, 0xFF, 0xFF, 0xFF]) = some ([], 0, .none, []) ∧
    view (core [0x10, 0, 0, 0, 0]) = some ([], 5, .none, []) := by decide
theorem test_jmp_outside :
    view (core [0x10, 1, 0, 0, 0]) = some ([], 0, .invalidJumpTarget, [.diag 15 0]) ∧
    view (core [0x10, 0xFA, 0xFF, 0xFF, 0xFF]) = some ([], 0, .invalidJumpTarget, [.diag 15 0]) ∧
    view (core [0x10, 0xFF, 0xFF, 0xFF, 0x7F]) = some ([], 0, .invalidJumpTarget, [.diag 15 0]) := by
  refine ⟨?_, ?_, ?_⟩ <;> decide
/-- E2; E1, E3, E5: the steps that are no instruction's. -/
theorem test_halt : view (core [0x00]) = some ([], 1, .haltInsn, []) := by decide
theorem test_no_instruction :
    view (core []) = some ([], 0, .endOfProgram, []) ∧
    view (core [0x15]) = some ([], 0, .unknownOpcode, [.diag 4 0]) ∧
    view (core [0x01, 0, 0, 0, 0, 0, 0, 0]) = some ([], 0, .decodePastEnd, [.diag 3 0]) := by
  refine ⟨?_, ?_, ?_⟩ <;> decide
/-- O3, O2. -/
theorem test_print :
    view (core [0x06] [0x8000000000000000]) = some ([], 1, .none, [.print 0x8000000000000000]) ∧
    view (core [0x06]) = some ([], 0, .stackUnderflow, [.diag 13 0]) := by decide
/-- O4, O7. -/
theorem test_rand :
    view { core [0x11] with host := { randoms := [0x3FD0000000000000] } } =
      some ([0x3FD0000000000000], 1, .none, [.randReq]) ∧
    view (core [0x11] [3, 2, 1]) = some ([3, 2, 1], 0, .stackOverflow, [.diag 12 0]) := by decide
/-- O8, O9. -/
theorem test_input :
    view { core [0x12] with host := { lines := [.value 0x4004000000000000] } } =
      some ([0x4004000000000000], 1, .none, [.prompt, .inputReq]) ∧
    view { core [0x12] with host := { lines := [.parseFail] } } =
      some ([0], 1, .none, [.prompt, .inputReq, .diag 16 0]) := by decide
/-- O11: a host that never answers; the status registers and the events while INPUT waits. -/
theorem test_input_waits :
    step { core [0x12] with host := { silent := true } } = .fault .inputWait ∧
    statusPort (awaitLine (core [0x12])) = (.running, .none, 0, 1, -1, 0, 0) ∧
    (awaitLine (core [0x12])).events = [.prompt] := ⟨rfl, by decide, by decide⟩
/-- Section 2.8: the image, and HSAVE answered `Ok` and `Fail`. -/
theorem test_hsave :
    (after { core [0x13] with vh := heap28, host := { writes := [.ok] } }).map
        (fun t => (t.slot, t.events, t.ip)) = some (some img, [.slotWrite img], 1) ∧
    (after { core [0x13] with vh := heap28, host := { writes := [.fail (some [7])] } }).map
        (fun t => (t.slot, t.events, t.ip)) =
      some (some [7], [.slotWrite img, .diag 17 0], 1) := by decide
/-- I1, I2. -/
theorem test_hload :
    (after { core [0x14] with slot := some img, host := { reads := [.deliver] } }).map
        (fun t => (t.vh, t.events, t.ip)) = some (heap28, [.slotRead], 1) ∧
    (after { core [0x14] with host := { reads := [.fail] } }).map
        (fun t => (t.vh.hp, t.vh.vc, t.events, t.ip)) =
      some (0, 0, [.slotRead, .diag 18 0], 1) := by decide
/-- I3 to I10: each check of the decoder. -/
theorem test_hload_malformed :
    decodeImage 4 2 img.dropLast = none ∧ decodeImage 4 2 (img ++ [0]) = none ∧
    decodeImage 4 2 (img.set 0 5) = none ∧
    decodeImage 4 2 ([0xFF, 0xFF, 0xFF, 0xFF] ++ img.drop 4) = none ∧
    decodeImage 4 2 (img.set 4 3) = none ∧ decodeImage 4 2 (img.set 40 0) = none ∧
    decodeImage 4 2 (img.set 52 3) = none ∧ decodeImage 4 2 (img.set 0 2) = none := by decide
/-- I11 to I13: dead entries, overlaps and unused cells are accepted. -/
theorem test_image_accepted :
    decodeImage 4 2 ((img.set 4 1).set 48 0xFF) =
      some { heap28 with vc := 1, table := [{ size := 2, base := 0 }, { size := 255, base := 2 }] } ∧
    decodeImage 4 2 (img.set 52 0) =
      some { heap28 with table := [{ size := 2, base := 0 }, { size := 1, base := 0 }] } ∧
    decodeImage 4 2 (img.set 4 0) = some { heap28 with vc := 0 } := by decide

/-! ### Reset, load, notation -/

/-- 10_state.md R40. -/
theorem test_reset :
    statusPort State.reset = (.running, .none, 0, 0, -1, 0, 0) ∧ Memory.wf State.reset.prog = true ∧
    State.reset.globalCap = 256 ∧ State.reset.heapCap = 1024 ∧ State.reset.vecCap = 64 :=
  ⟨rfl, rfl, List.length_replicate, List.length_replicate, List.length_replicate⟩
/-- Reset keeps program and slot and clears the rest (70_reset_and_hazards.md R260). -/
theorem test_assertReset :
    assertReset { core [0x00] [5] with vh := heap28, slot := some [1], cause := .haltInsn, engine := .halted } =
      { core [0x00] with slot := some [1] } := by decide
/-- Program P1 in the notation is the bytes of its table (30_encoding.md R111, R112). -/
theorem test_assemble :
    assemble .default "push 2.0; push 3.0; add; print; halt" =
      some ([0x01, 0, 0, 0, 0, 0, 0, 0, 0x40] ++ [0x01, 0, 0, 0, 0, 0, 0, 0x08, 0x40] ++
        [0x02, 0x06, 0x00]) := by decide
/-- Labels: the JMPF and JMP of program P4 have offsets 41 and -61 because of where the labels stand. -/
theorem test_assemble_labels :
    assemble .default "jmpf done ; loop: gload 1 # i\n jump loop\ndone: halt" =
      some [0x0F, 10, 0, 0, 0, 0x08, 1, 0, 0, 0, 0x10, 0xF6, 0xFF, 0xFF, 0xFF, 0x00] := by decide

/-! ### Witnesses: for each obligation with hypotheses, values that meet them, at the ends of each range -/

theorem test_witness_DecodeInvertsEncode : OpMap.default.WellFormed = true := by decide

theorem test_witness_EncodeInvertsDecode :
    decode .default ([0x09, 2, 0, 0, 0] ++ [0x00]) = .insn (.mkvec 2) 5 := by decide

/-- End of program; an unassigned byte; an operand one byte short; an operand that just fits. -/
theorem test_witness_DecodeFollowsProgramStore :
    (core []).opmap.WellFormed = true ∧ (core []).ip = (core []).plen ∧
    (∀ b ∈ [(core [0x15])], b.ip < b.plen ∧ b.opmap.lookup (Memory.read b.prog b.ip) = none) ∧
    (∀ b ∈ [core [0x10, 0, 0, 0]], b.ip < b.plen ∧ b.opmap.byteOf .jmp = Memory.read b.prog b.ip ∧
      b.plen < b.ip + Mnemonic.length .jmp) ∧
    ∀ b ∈ [core [0x10, 0, 0, 0, 0]], b.opmap.byteOf .jmp = Memory.read b.prog b.ip ∧
      b.ip + Mnemonic.length .jmp = b.plen := by decide

theorem test_witness_StepRunsDecodedInstruction :
    (core [0x02]).engine = .running ∧
      decode (core [0x02]).opmap (fetchWindow (core [0x02])) = .insn .add 1 := by decide

theorem test_witness_EndOfProgramHaltsCleanly :
    State.reset.engine = .running ∧ State.reset.ip = State.reset.plen := ⟨rfl, rfl⟩

theorem test_witness_UnknownOpcodeHalts :
    (core [0x15]).engine = .running ∧ (core [0x15]).ip < (core [0x15]).plen ∧
      ∀ m, (core [0x15]).opmap.byteOf m ≠ Memory.read (core [0x15]).prog (core [0x15]).ip :=
  ⟨rfl, by decide, fun m => by cases m <;> decide⟩

/-- An operand that is missing, and operands one byte short (E7, E5, E8, and the same for the others). -/
theorem test_witness_TruncatedOperandHalts :
    TruncatedAt .push (core [0x01]) ∧ TruncatedAt .push (core [0x01, 0, 0, 0, 0, 0, 0, 0]) ∧
    TruncatedAt .gstore (core [0x07, 3, 0, 0]) ∧ TruncatedAt .gload (core [0x08, 3, 0, 0]) ∧
    TruncatedAt .mkvec (core [0x09, 5]) ∧ TruncatedAt .jmpf (core [0x0F, 0, 0, 0]) ∧
    TruncatedAt .jmp (core [0x10, 0, 0]) := by
  unfold TruncatedAt; decide

theorem test_witness_NoStepFromHalted :
    { core [] with engine := Engine.halted, cause := Cause.haltInsn }.engine = .halted ∧
      ∃ t, step (core [0x00]) = .next t := ⟨rfl, _, rfl⟩

/-- A step from outside the INPUT wait, and one from inside it. -/
theorem test_witness_StepKeepsInvariant :
    (Inv (core [0x00]) ∧ ∃ t, step (core [0x00]) = .next t) ∧
    Inv (awaitLine (core [0x12] [2, 1])) ∧ ∃ t, step (awaitLine (core [0x12] [2, 1])) = .next t :=
  ⟨⟨inv_of_check (by decide), _, rfl⟩, inv_of_check (by decide), _, rfl⟩

theorem test_witness_InvariantAtReset : Config.default.WellFormed = true ∧ tiny.WellFormed = true := by
  decide

theorem test_witness_BootKeepsInvariant :
    (Inv (core [0x06] [1]) ∧ ∃ t, boot [0x02, 0x00] (core [0x06] [1]) = some t) ∧
    Inv (awaitLine (core [0x12])) ∧ ∃ t, boot [0x02, 0x00] (awaitLine (core [0x12])) = some t :=
  ⟨⟨inv_of_check (by decide), _, rfl⟩, inv_of_check (by decide), _, rfl⟩

theorem test_witness_ProgramStoreIsImmutable : ∃ t, step (core [0x02] [1, 1]) = .next t := ⟨_, rfl⟩

theorem test_witness_FatalErrorsArePrecise :
    (core []).engine = .running ∧
      (∃ t, exec .halt (core []) = .next t ∧ t.engine = .halted) ∧
      ∃ t, exec .add (core []) = .next t ∧ t.engine = .halted := ⟨rfl, ⟨_, rfl, rfl⟩, _, rfl, rfl⟩

/-- A halt of each kind, and a warning of a step after which the engine runs on. -/
theorem test_witness_DiagnosticsOfEachInstruction :
    (Inv (core []) ∧ ∃ t, step (core []) = .next t ∧ t.engine = .halted) ∧
    (Inv (core [0x15]) ∧ ∃ t, step (core [0x15]) = .next t ∧ t.engine = .halted) ∧
    (Inv (core [0x02]) ∧ ∃ t, step (core [0x02]) = .next t ∧ t.engine = .halted) ∧
    ∃ s t, Inv s ∧ step s = .next t ∧ t.engine = .running ∧
      t.events = s.events ++ [.prompt, .inputReq, .diag 16 0] :=
  ⟨⟨inv_of_check (by decide), _, rfl, rfl⟩, ⟨inv_of_check (by decide), _, rfl, rfl⟩,
    ⟨inv_of_check (by decide), _, rfl, rfl⟩,
    { core [0x12] with host := { lines := [.parseFail] } }, _, inv_of_check (by decide), rfl, rfl, rfl⟩

/-- An allocation that fills the heap to its end. -/
theorem test_witness_HeapGrowsMonotonically :
    Inv (core [0x09, 3, 0, 0, 0] [3, 2, 1]) ∧ (∃ t, step (core [0x09, 3, 0, 0, 0] [3, 2, 1]) = .next t) ∧
      decode (core [0x09, 3, 0, 0, 0] [3, 2, 1]).opmap (fetchWindow (core [0x09, 3, 0, 0, 0] [3, 2, 1])) =
        .insn (.mkvec 3) 5 := ⟨inv_of_check (by decide), ⟨_, rfl⟩, by decide⟩

theorem test_witness_AllocationKeepsBumpForm :
    Inv (core [0x09, 3, 0, 0, 0] [3, 2, 1]) ∧ (∃ t, step (core [0x09, 3, 0, 0, 0] [3, 2, 1]) = .next t) ∧
      decode (core [0x09, 3, 0, 0, 0] [3, 2, 1]).opmap (fetchWindow (core [0x09, 3, 0, 0, 0] [3, 2, 1])) =
        .insn (.mkvec 3) 5 ∧
      bumpForm (core [0x09, 3, 0, 0, 0] [3, 2, 1]).vh = true ∧
      bumpForm heap28 = true ∧ bumpForm { heap28 with vc := 1 } = false :=
  ⟨inv_of_check (by decide), ⟨_, rfl⟩, by decide, by decide, by decide, by decide⟩

theorem test_witness_OutputHistoryOnlyGrows : ∃ t, step (core [0x12]) = .next t := ⟨_, rfl⟩

theorem test_witness_OnlyHsaveWritesSlot :
    (∃ t, step (core [0x14]) = .next t) ∧
      decode (core [0x14]).opmap (fetchWindow (core [0x14])) = .insn .hload 1 := ⟨⟨_, rfl⟩, by decide⟩

/-- The last free cell; a full stack; a truncated PUSH. -/
theorem test_witness_PushPushesLiteral :
    (core [] [2, 1]).stack.length < (core [] [2, 1]).stackCap ∧
    (core [] [3, 2, 1]).stack.length = (core [] [3, 2, 1]).stackCap ∧
    TruncatedAt .push (core [0x01, 0, 0, 0, 0, 0, 0, 0] [3, 2, 1]) := by unfold TruncatedAt; decide

/-- Two operands on a full stack; one value; none. -/
theorem test_witness_AddSubMulReplaceOperands :
    ((core [] [3, 2, 1]).stack = 3 :: 2 :: [1] ∧
      (core [] [3, 2, 1]).stack.length ≤ (core [] [3, 2, 1]).stackCap) ∧
    (core [] [1]).stack.length < 2 ∧ (core []).stack.length < 2 := by decide

/-- Divisors: the smallest number that is no zero, and both zeros; one value. -/
theorem test_witness_DivDividesOrHalts :
    ((core [] [1, 2]).stack = 1 :: 2 :: [] ∧ (core [] [1, 2]).stack.length ≤ (core [] [1, 2]).stackCap ∧
      fisZero 1 = false) ∧
    ((core [] [0, 2]).stack = 0 :: 2 :: [] ∧ (core [] [0, 2]).stack.length ≤ (core [] [0, 2]).stackCap ∧
      fisZero 0 = true ∧ fisZero 0x8000000000000000 = true) ∧
    (core [] [0]).stack.length < 2 := by decide

theorem test_witness_ReluRectifies :
    ((core [] [3, 2, 1]).stack = 3 :: [2, 1] ∧
      (core [] [3, 2, 1]).stack.length ≤ (core [] [3, 2, 1]).stackCap) ∧ (core []).stack = [] := by decide

theorem test_witness_GtLtCompare :
    ((core [] [3, 2, 1]).stack = 3 :: 2 :: [1] ∧
      (core [] [3, 2, 1]).stack.length ≤ (core [] [3, 2, 1]).stackCap) ∧
    (core [] [1]).stack.length < 2 := by decide

/-- Two operands and a NaN; each kind of operand that gives a NaN difference; one value. -/
theorem test_witness_EqComparesWithTolerance :
    ((core [] [3, 2, 1]).stack = 3 :: 2 :: [1] ∧
      (core [] [3, 2, 1]).stack.length ≤ (core [] [3, 2, 1]).stackCap ∧ isNaN 0x7FF8000000000000 = true) ∧
    (isNaN 0x7FF0000000000001 = true ∧ isInf 0x7FF0000000000000 = true ∧ isInf 0xFFF0000000000000 = true) ∧
    (core [] [1]).stack.length < 2 := by decide

/-- The first and the last index with a value; the indices next to them; an empty stack; a truncated GSTORE. -/
theorem test_witness_GstoreStoresGlobal :
    (0 ≤ (0 : I32).toInt ∧ (0 : I32).toInt < (core [] [1]).globalCap ∧
      0 ≤ (3 : I32).toInt ∧ (3 : I32).toInt < (core [] [1]).globalCap ∧ (core [] [1]).stack = 1 :: []) ∧
    ((-1 : I32).toInt < 0 ∧ (core []).globalCap ≤ (4 : I32).toInt) ∧ (core []).stack = [] ∧
    TruncatedAt .gstore (core [0x07, 4, 0, 0]) := by unfold TruncatedAt; decide

/-- The first and the last index with room; the indices next to them; a full stack; a truncated GLOAD. -/
theorem test_witness_GloadPushesGlobal :
    (0 ≤ (0 : I32).toInt ∧ (0 : I32).toInt < (core [] [2, 1]).globalCap ∧
      0 ≤ (3 : I32).toInt ∧ (3 : I32).toInt < (core [] [2, 1]).globalCap ∧
      (core [] [2, 1]).stack.length < (core [] [2, 1]).stackCap) ∧
    ((-1 : I32).toInt < 0 ∧ (core []).globalCap ≤ (4 : I32).toInt) ∧
    (core [] [3, 2, 1]).stack.length = (core [] [3, 2, 1]).stackCap ∧
    TruncatedAt .gload (core [0x08, 4, 0, 0]) := by unfold TruncatedAt; decide

theorem test_witness_GlobalReadsAfterStore :
    (core [] [7]).engine = .running ∧ ∃ t, exec (.gstore 3) (core [] [7]) = .next t ∧ t.engine = .running :=
  ⟨rfl, _, rfl, rfl⟩

/-- Each clause of MKVEC: size 0 and -1; one cell too many; a full table with room in the heap; one operand
too few; an allocation of exactly what the heap has left; a truncated MKVEC. -/
theorem test_witness_MkvecAllocatesVector :
    ((0 : I32).toInt ≤ 0 ∧ (-1 : I32).toInt ≤ 0) ∧
    (0 < (5 : I32).toInt ∧ (core []).heapCap < (core []).vh.hp + (5 : I32).toInt.toNat) ∧
    (0 < (1 : I32).toInt ∧ heap28.hp + (1 : I32).toInt.toNat ≤ heap28.cells.length ∧
      heap28.vc = heap28.table.length) ∧
    (0 < (2 : I32).toInt ∧ (core [] [1]).vh.hp + (2 : I32).toInt.toNat ≤ (core [] [1]).heapCap ∧
      (core [] [1]).vh.vc < (core [] [1]).vecCap ∧ (core [] [1]).stack.length < (2 : I32).toInt.toNat) ∧
    (∀ v ∈ [{ heap28 with hp := 2, vc := 1 }], (2 : I32).toInt = (2 : Nat) ∧ 0 < 2 ∧
      v.hp + 2 = v.cells.length ∧ v.vc < v.table.length ∧ 2 ≤ (core [] [2, 1]).stack.length) ∧
    TruncatedAt .mkvec (core [0x09, 5]) := by unfold TruncatedAt; decide

/-- Handles of two live vectors, of equal and of different size, and values that are no handle. -/
theorem test_witness_DotComputesDotProduct :
    Inv { core [0x0A] [0x3FF0000000000000, 0] with vh := heap28 } ∧
    (handleIndex 0 heap28.vc = some 0 ∧ handleIndex 0x3FF0000000000000 heap28.vc = some 1 ∧
      handleIndex 0x8000000000000000 heap28.vc = some 0) ∧
    heap28.table[0]? = some { size := 2, base := 0 } ∧ heap28.table[1]? = some { size := 1, base := 2 } ∧
    (handleIndex 0x4000000000000000 heap28.vc = none ∧ handleIndex 0x3FF8000000000000 heap28.vc = none ∧
      handleIndex 0xBFF0000000000000 heap28.vc = none ∧ handleIndex 0x7FF8000000000000 heap28.vc = none ∧
      handleIndex 0x7FF0000000000000 heap28.vc = none) :=
  ⟨inv_of_check (by decide), by decide, by decide, by decide, by decide⟩

/-- In a program of 5 bytes: a zero with targets 0 and `plen`, and with the ones next to them outside; a
condition that is no zero; an empty stack; a truncated JMPF. -/
theorem test_witness_JmpfJumpsOnZero :
    (∀ s ∈ [core [0x0F, 0, 0, 0, 0] [0x8000000000000000]], s.stack = 0x8000000000000000 :: [] ∧
      fisZero 0x8000000000000000 = true ∧
      ((s.ip : Int) + 5 + (-5 : I32).toInt = (0 : Nat) ∧ 0 ≤ s.plen) ∧
      ((s.ip : Int) + 5 + (0 : I32).toInt = (5 : Nat) ∧ 5 ≤ s.plen) ∧
      (s.ip : Int) + 5 + (-6 : I32).toInt < 0 ∧ s.plen < (s.ip : Int) + 5 + (1 : I32).toInt) ∧
    ((core [] [1]).stack = 1 :: [] ∧ fisZero 1 = false) ∧ (core []).stack = [] ∧
    TruncatedAt .jmpf (core [0x0F, 0, 0, 0]) := by unfold TruncatedAt; decide

/-- In a program of 5 bytes: targets 0 and `plen`, and the ones next to them outside; a truncated JMP. -/
theorem test_witness_JmpJumps :
    (∀ s ∈ [core [0x10, 0, 0, 0, 0]],
      ((s.ip : Int) + 5 + (-5 : I32).toInt = (0 : Nat) ∧ 0 ≤ s.plen) ∧
      ((s.ip : Int) + 5 + (0 : I32).toInt = (5 : Nat) ∧ 5 ≤ s.plen) ∧
      (s.ip : Int) + 5 + (-6 : I32).toInt < 0 ∧ s.plen < (s.ip : Int) + 5 + (1 : I32).toInt) ∧
    TruncatedAt .jmp (core [0x10, 0, 0]) := by unfold TruncatedAt; decide

theorem test_witness_PrintEmitsAndPops :
    (core [] [3, 2, 1]).stack = 3 :: [2, 1] ∧ (core []).stack = [] := by decide

/-- Room and the largest admissible ready answer; none ready; a full stack. -/
theorem test_witness_RandPushesAdmissibleValue :
    (∀ s ∈ [{ core [] [2, 1] with host := { randoms := [0x3FEFFFFFFFFFFFFF] } }],
      s.stack.length < s.stackCap ∧ s.host.randoms = 0x3FEFFFFFFFFFFFFF :: [] ∧
      (0x3FEFFFFFFFFFFFFF : BitVec 64).toNat ≤ 0x3FEFFFFFFFFFFFFF) ∧
    (core [] [2, 1]).host.randoms = [] ∧
    (core [] [3, 2, 1]).stack.length = (core [] [3, 2, 1]).stackCap := by decide

/-- Room and each kind of ready answer, of a silent host; none ready and a host that answers; a full stack. -/
theorem test_witness_InputPushesAnswer :
    (∀ s ∈ [{ core [] [2, 1] with host := { lines := [.value 5], silent := true } }],
      s.stack.length < s.stackCap ∧ s.host.lines ≠ [] ∧ s.host.lines = .value 5 :: []) ∧
    (∀ s ∈ [{ core [] [2, 1] with host := { lines := [.parseFail] } }],
      s.stack.length < s.stackCap ∧ s.host.lines ≠ [] ∧ s.host.lines = .parseFail :: []) ∧
    ((core [] [2, 1]).stack.length < (core [] [2, 1]).stackCap ∧ (core [] [2, 1]).host.silent = false ∧
      (core [] [2, 1]).host.lines = []) ∧
    (core [] [3, 2, 1]).stack.length = (core [] [3, 2, 1]).stackCap := by decide

/-- A silent host and the last free cell; a state in which INPUT can wait. -/
theorem test_witness_InputWaitsForAnswer :
    (∀ s ∈ [{ core [0x12] [2, 1] with host := { silent := true } }],
      s.stack.length < s.stackCap ∧ s.host.lines = [] ∧ s.host.silent = true) ∧
    (core [0x12] [2, 1]).prompted = false ∧ Inv (core [0x12] [2, 1]) ∧
    (core [0x12] [2, 1]).engine = .running ∧
    decode (core [0x12] [2, 1]).opmap (fetchWindow (core [0x12] [2, 1])) = .insn .input 1 ∧
    (core [0x12] [2, 1]).stack.length < (core [0x12] [2, 1]).stackCap :=
  ⟨by decide, rfl, inv_of_check (by decide), rfl, by decide, by decide⟩

/-- A reset inside the INPUT wait: the next run's INPUT gives its own prompt (R260). -/
theorem test_reset_in_wait :
    ∀ s ∈ [awaitLine { core [0x12] with host := { lines := [.value 5] } }],
      s.prompted = true ∧ (after (assertReset s)).map State.events = some [.prompt, .inputReq] := by
  decide

theorem test_witness_HsaveWritesImage :
    { core [] with host := { writes := [.ok] } }.host.writes = .ok :: [] ∧
    { core [] with host := { writes := [.fail none] } }.host.writes = .fail none :: [] ∧
    (core []).host.writes = [] := by decide

theorem test_witness_HloadReplacesHeapOrNothing :
    { core [] with host := { reads := [.deliver] } }.host.reads = .deliver :: [] ∧
    { core [] with host := { reads := [.fail] } }.host.reads = .fail :: [] ∧
    (core []).host.reads = [] := by decide

/-- The first and last cell and entry of the image of section 2.8. -/
theorem test_witness_ImageLayout :
    heap28.cells[0]? = some 0x3FF8000000000000 ∧ heap28.cells[3]? = some 0 ∧
    heap28.table[0]? = some { size := 2, base := 0 } ∧ heap28.table[1]? = some { size := 1, base := 2 } := by
  decide

theorem test_witness_DecodeImageInvertsEncodeImage :
    heapOk heap28 = true ∧ heap28.cells.length ≤ 2147483647 ∧ heap28.table.length ≤ 2147483647 := by decide

theorem test_witness_AcceptedImagesAreFaithful : decodeImage 4 2 img = some heap28 := by decide

/-- A save, and a load into another heap. -/
theorem test_witness_SaveThenLoadRestoresHeap : ∃ s s' u : State,
    Inv s ∧ (askWrite s).1 = .ok ∧ exec .hsave s = .next s' ∧ u.slot = s'.slot ∧ u.config = s.config ∧
      (askRead u).1 = .deliver ∧ u.vh ≠ s.vh :=
  ⟨{ core [0x13] with vh := heap28, host := { writes := [.ok] } }, _,
    { core [0x14] with slot := some (encodeImage heap28), host := { reads := [.deliver] } },
    inv_of_check (by decide), rfl, rfl, rfl, rfl, rfl, by decide⟩

/-- A tie: 2^53 + 1 lies between two values, and the one with the even significand is taken. -/
theorem test_witness_FaddFsubAreCorrectlyRounded :
    isFinite 0x4340000000000000 = true ∧ isFinite 0x3FF0000000000000 = true ∧
    isFinite 0x4340000000000001 = true ∧
    fadd 0 0x4340000000000000 0x3FF0000000000000 = 0x4340000000000000 ∧
    scaled 0x4340000000000001 - (scaled 0x4340000000000000 + scaled 0x3FF0000000000000) =
      (scaled 0x4340000000000000 + scaled 0x3FF0000000000000) - scaled 0x4340000000000000 ∧
    isInf (fadd 0 0x7FEFFFFFFFFFFFFF 0x7C90000000000000) = true ∧
    isFinite (fadd 0 0x7FEFFFFFFFFFFFFF 0x7C8FFFFFFFFFFFFF) = true := by
  decide +kernel

/-- A tie: (1 + 2^-52) * 1.5 lies between two values. -/
theorem test_witness_FmulIsCorrectlyRounded :
    isFinite 0x3FF0000000000001 = true ∧ isFinite 0x3FF8000000000000 = true ∧
    fmul 0 0x3FF0000000000001 0x3FF8000000000000 = 0x3FF8000000000002 ∧
    scaled 0x3FF8000000000002 * unit - scaled 0x3FF0000000000001 * scaled 0x3FF8000000000000 =
      scaled 0x3FF0000000000001 * scaled 0x3FF8000000000000 - scaled 0x3FF8000000000001 * unit := by
  decide +kernel

/-- A tie: half the smallest subnormal lies between it and 0. -/
theorem test_witness_FdivIsCorrectlyRounded :
    isFinite 0x0000000000000001 = true ∧ isFinite 0x4000000000000000 = true ∧
    fisZero 0x4000000000000000 = false ∧ fdiv 0 0x0000000000000001 0x4000000000000000 = 0 ∧
    scaled 0x0000000000000001 * scaled 0x4000000000000000 - scaled 0x0000000000000001 * unit =
      scaled 0x0000000000000001 * unit - 0 := by
  decide +kernel

/-- A NaN to draw, and an invalid operation of each kind that returns it, with a signalling operand last. -/
theorem test_witness_NanExactlyOnInvalidOperation :
    isNaN 0xFFF8000000000001 = true ∧
    isNaN (fadd 0xFFF8000000000001 0x7FF0000000000000 0xFFF0000000000000) = true ∧
    isNaN (fsub 0xFFF8000000000001 0xFFF0000000000000 0xFFF0000000000000) = true ∧
    isNaN (fmul 0xFFF8000000000001 0 0x7FF0000000000000) = true ∧
    isNaN (fdiv 0xFFF8000000000001 0x7FF0000000000001 0) = true := by decide

/-- A zero of each sign, an infinity of each sign, a finite value, a NaN, results that are no NaN:
`SignedZerosAndInfinities`, `ComparisonsFollowValues`, `ZeroTestAndAbsoluteValue`. -/
theorem test_witness_number_kinds :
    (fisZero 0 = true ∧ fisZero 0x8000000000000000 = true) ∧
    (isInf 0x7FF0000000000000 = true ∧ isInf 0xFFF0000000000000 = true) ∧
    (isFinite 0x7FEFFFFFFFFFFFFF = true ∧ fisZero 0x7FEFFFFFFFFFFFFF = false) ∧
    isNaN 0x7FF0000000000001 = true ∧
    (isNaN 0x7FF0000000000000 = false ∧ isNaN 0xFFF0000000000000 = false) ∧ isNaN (fmul 0 0x7FF0000000000000 0x3FF0000000000000) = false ∧
    isNaN (fdiv 0 0x3FF0000000000000 0x7FF0000000000000) = false := by decide

theorem test_witness_IntegerConversionIsExact :
    (0 : Nat) < 2 ^ 53 ∧ 9007199254740991 < 2 ^ 53 ∧ f64OfNat 9007199254740991 = 0x433FFFFFFFFFFFFF := by
  decide

theorem test_witness_HandlesDenoteIndices :
    0 < 1 ∧ 63 < 64 ∧ 64 ≤ 2147483647 ∧ handleIndex (f64OfNat 63) 64 = some 63 := by decide

/-- The longest accepted program and the shortest refused one. -/
theorem test_witness_LoadPortReplacesProgram :
    (List.replicate 64 (0x02 : Byte)).length ≤ (core []).progCap ∧
    (core []).progCap < (List.replicate 65 (0x02 : Byte)).length := by decide

/-- One state for each side. -/
theorem test_witness_ErrorStatusIsUncleanEnd :
    Inv { core [] with engine := .halted, cause := .endOfProgram } ∧
    Inv { core [] with engine := .halted, cause := .decodePastEnd } :=
  ⟨inv_of_check (by decide), inv_of_check (by decide)⟩

theorem test_witness_PlacedWordIsExecuted :
    State.reset.opmap = .default ∧ Memory.wf State.reset.prog = true ∧
      decodeTableWord 40 0xFFFFFFF110 = some (.jmp (-15)) := ⟨rfl, rfl, by decide⟩

end Sys2Proof.Tests
end

/-! PROOFS. Arithmetic and comparison (40_arith.md): the kinds of value under `fneg` and `fabs`, the order
of the comparisons, and the instructions PUSH, RELU, GT, LT and EQ. -/

namespace Sys2Proof.Machine

/-! ### The kind of a value depends on its two fields alone -/

theorem isNaN_congr {x y : F64} (he : expField x = expField y) (hf : fracField x = fracField y) :
    isNaN x = isNaN y := by rw [isNaN, he, hf, isNaN]

theorem isInf_congr {x y : F64} (he : expField x = expField y) (hf : fracField x = fracField y) :
    isInf x = isInf y := by rw [isInf, he, hf, isInf]

theorem magnitude_congr {x y : F64} (he : expField x = expField y) (hf : fracField x = fracField y) :
    magnitude x = magnitude y := by rw [magnitude_eq, he, hf, ← magnitude_eq]

@[simp] theorem isNaN_fneg (x : F64) : isNaN (fneg x) = isNaN x :=
  isNaN_congr (fneg_fields x).1 (fneg_fields x).2

@[simp] theorem isInf_fneg (x : F64) : isInf (fneg x) = isInf x :=
  isInf_congr (fneg_fields x).1 (fneg_fields x).2

theorem isInf_of_isNaN {x : F64} (h : isNaN x = true) : isInf x = false := by
  have := finite_or_inf_or_nan x
  simp_all

theorem isNaN_of_isInf {x : F64} (h : isInf x = true) : isNaN x = false := by
  have := finite_or_inf_or_nan x
  simp_all

theorem isNaN_of_isFinite {x : F64} (h : isFinite x = true) : isNaN x = false := by
  have := finite_or_inf_or_nan x
  simp_all

/-- The NaN drawn for an invalid operation is one (40_arith.md R134). -/
@[simp] theorem isNaN_quietNaN (d : BitVec 52) : isNaN (quietNaN d) = true := by
  have h := quietNaN_toNat d
  simp only [isNaN, decide_eq_true_eq]
  simp only [expField, fracField]
  omega

@[simp] theorem isNaN_nanDraw (s : State) : isNaN (nanDraw s) = true := isNaN_quietNaN _

/-! ### `fabs` (40_arith.md R133) -/

@[simp] theorem fabs_msb (x : F64) : (fabs x).msb = false := by
  have := fabs_toNat x
  rw [BitVec.msb_eq_decide, decide_eq_false_iff_not]
  omega

@[simp] theorem expField_fabs (x : F64) : expField (fabs x) = expField x := by
  rw [expField, fabs_toNat, expField]; omega

@[simp] theorem fracField_fabs (x : F64) : fracField (fabs x) = fracField x := by
  rw [fracField, fabs_toNat, fracField]; omega

@[simp] theorem isNaN_fabs (x : F64) : isNaN (fabs x) = isNaN x :=
  isNaN_congr (expField_fabs x) (fracField_fabs x)

/-- `fabs` is the absolute value. -/
theorem scaled_fabs (x : F64) : scaled (fabs x) = |scaled x| := by
  rw [scaled_def, fabs_msb, abs_scaled, magnitude_congr (expField_fabs x) (fracField_fabs x)]
  rfl

/-! ### The order of the comparisons (40_arith.md R132) -/

theorem flt_of_isNaN {a b : F64} (h : isNaN a = true ∨ isNaN b = true) : flt a b = false := by
  rcases h with h | h <;> simp [flt, h]

theorem flt_eq_decide {a b : F64} (ha : isNaN a = false) (hb : isNaN b = false) :
    flt a b = decide (orderKey a < orderKey b) := by
  simp [flt, ha, hb]

/-- An infinity stands at an end of the line of values. -/
theorem orderKey_of_isInf {a : F64} (h : isInf a = true) :
    orderKey a = if a.msb then -0x7FF0000000000000 else 0x7FF0000000000000 := by
  simp only [isInf, decide_eq_true_eq] at h
  simp only [expField, fracField] at h
  have : a.toNat % 0x8000000000000000 = 0x7FF0000000000000 := by omega
  rw [orderKey, this]
  rfl

/-- A finite value stands strictly between the infinities. -/
theorem orderKey_bounds_of_isFinite {a : F64} (h : isFinite a = true) :
    -0x7FF0000000000000 < orderKey a ∧ orderKey a < 0x7FF0000000000000 := by
  simp only [isFinite, decide_eq_true_eq] at h
  simp only [expField] at h
  rw [orderKey]
  split <;> omega

theorem flt_finite {a b : F64} (ha : isFinite a = true) (hb : isFinite b = true) :
    flt a b = decide (scaled a < scaled b) := by
  simp only [flt_eq_decide (isNaN_of_isFinite ha) (isNaN_of_isFinite hb), orderKey_lt_iff]

theorem flt_finite_inf {a b : F64} (ha : isFinite a = true) (hb : isInf b = true) :
    flt a b = !b.msb := by
  obtain ⟨hlo, hhi⟩ := orderKey_bounds_of_isFinite ha
  rw [flt_eq_decide (isNaN_of_isFinite ha) (isNaN_of_isInf hb), orderKey_of_isInf hb]
  cases b.msb
  · simpa using hhi
  · simpa using hlo.le

theorem flt_inf_finite {a b : F64} (ha : isInf a = true) (hb : isFinite b = true) :
    flt a b = a.msb := by
  obtain ⟨hlo, hhi⟩ := orderKey_bounds_of_isFinite hb
  rw [flt_eq_decide (isNaN_of_isInf ha) (isNaN_of_isFinite hb), orderKey_of_isInf ha]
  cases a.msb
  · simpa using hhi.le
  · simpa using hlo

theorem flt_inf_inf {a b : F64} (ha : isInf a = true) (hb : isInf b = true) :
    flt a b = (a.msb && !b.msb) := by
  rw [flt_eq_decide (isNaN_of_isInf ha) (isNaN_of_isInf hb), orderKey_of_isInf ha, orderKey_of_isInf hb]
  cases a.msb <;> cases b.msb <;> decide

/-- Settles O53: on values that are no NaN the comparison is that of the order keys. -/
theorem comparisonsFollowValues : Obligations.ComparisonsFollowValues := fun _ _ =>
  ⟨rfl, flt_of_isNaN, flt_finite, flt_finite_inf, flt_inf_finite, flt_inf_inf⟩

/-! ### The zero test (40_arith.md R133) -/

/-- The zero test is true of two patterns only. -/
theorem fisZero_iff_pattern (a : F64) : fisZero a = true ↔ a = 0 ∨ a = 0x8000000000000000 := by
  have := a.isLt
  simp only [fisZero, decide_eq_true_eq, BitVec.toNat_eq, BitVec.reduceToNat]
  omega

theorem scaled_eq_zero_iff (a : F64) : scaled a = 0 ↔ magnitude a = 0 := by
  rw [← natAbs_scaled, Int.natAbs_eq_zero]

/-- Settles O54, from the fields of `fabs` and the zero test's patterns and values. -/
theorem zeroTestAndAbsoluteValue : Obligations.ZeroTestAndAbsoluteValue := fun a =>
  ⟨fisZero_iff_pattern a, by rw [fisZero_iff, scaled_eq_zero_iff], fabs_msb a, expField_fabs a,
    fracField_fabs a, fun _ => scaled_fabs a⟩

/-! ### The comparing instructions (40_arith.md R141 to R143) -/

/-- A comparison with two operands replaces them by its truth value. -/
theorem compared_completes {s : State} {p : F64 → F64 → Bool} {a b : F64} {rest : List F64}
    (h : s.stack = b :: a :: rest) (hc : s.stack.length ≤ s.stackCap) :
    settle s (compared p s) = .next { s with stack := truth (p a b) :: rest, ip := s.ip + 1 } := by
  have hr : rest.length < s.stackCap := by simp [h] at hc; omega
  rw [compared, binary_ok h hr]
  rfl

/-- A comparison with fewer than two operands underflows. -/
theorem compared_underflow {s : State} {p : F64 → F64 → Bool} (h : s.stack.length < 2) :
    settle s (compared p s) = .next (raise .stackUnderflow s) := by
  rw [compared, binary_underflow h]
  rfl

/-- Settles O26: GT and LT are comparisons by `fgt` and `flt`. -/
theorem gtLtCompare : Obligations.GtLtCompare :=
  ⟨fun _ _ _ _ h hc => ⟨compared_completes h hc, compared_completes h hc⟩,
    fun _ h => ⟨compared_underflow h, compared_underflow h⟩, rfl, rfl⟩

/-! ### EQ and the NaN of an invalid difference (40_arith.md R134, R143) -/

/-- Addition returns the NaN it is given, whichever it is, or never looks at it. -/
theorem fadd_invalid_or_const (a b : F64) :
    (∀ nan, fadd nan a b = nan) ∨ ∃ r, ∀ nan, fadd nan a b = r := by
  unfold fadd
  split
  · exact .inl fun _ => rfl
  split
  · split
    · exact .inl fun _ => rfl
    · exact .inr ⟨_, fun _ => rfl⟩
  · exact .inr ⟨_, fun _ => rfl⟩

/-- The test of EQ is false when the difference is invalid. -/
theorem nearlyEqual_of_invalid {nan a b : F64} (hn : isNaN nan = true) (h : fsub nan a b = nan) :
    nearlyEqual nan a b = false := by
  rw [nearlyEqual, h]
  exact flt_of_isNaN (.inl (by rw [isNaN_fabs, hn]))

/-- The test of EQ is the same whichever NaN an invalid difference gives. -/
theorem nearlyEqual_congr_nan {nan nan' : F64} (a b : F64) (h : isNaN nan = true)
    (h' : isNaN nan' = true) : nearlyEqual nan a b = nearlyEqual nan' a b := by
  rcases fadd_invalid_or_const a (fneg b) with hinv | ⟨r, hr⟩
  · rw [nearlyEqual_of_invalid h (hinv nan), nearlyEqual_of_invalid h' (hinv nan')]
  · simp only [nearlyEqual, fsub, hr]

/-- The difference with a NaN operand, or of two equal infinities, is invalid. -/
theorem fsub_invalid {nan a b : F64} (h : isNaN a = true ∨ isNaN b = true ∨ (isInf a = true ∧ a = b)) :
    fsub nan a b = nan := by
  rcases h with h | h | ⟨h, rfl⟩
  · simp [fsub, fadd, h]
  · simp [fsub, fadd, h]
  · simp [fsub, fadd, h, isNaN_of_isInf h, fneg_msb]

/-- Settles O27: EQ compares by `nearlyEqual`, which the choice of NaN does not change. -/
theorem eqComparesWithTolerance : Obligations.EqComparesWithTolerance := by
  refine ⟨fun s a b nan rest h hc hn => ?_,
    fun a b nan hn h => nearlyEqual_of_invalid hn (fsub_invalid h), fun s h => compared_underflow h, rfl⟩
  have hnan := nearlyEqual_congr_nan a b (isNaN_nanDraw s) hn
  have hstep : exec .eq s = _ := compared_completes h hc
  rw [hstep, hnan]
  rfl

/-! ### RELU (40_arith.md R140) -/

theorem execRelu_completes {s : State} {x : F64} {rest : List F64} (h : s.stack = x :: rest)
    (hc : s.stack.length ≤ s.stackCap) :
    execRelu s = .next { s with
      stack := (if fgt x posZero then x else posZero) :: rest, ip := s.ip + 1 } := by
  have hr : rest.length < s.stackCap := by simpa [h] using hc
  simp only [execRelu, pop_cons h, ok_bind, push_ok (s := { s with stack := rest }) _ hr]
  rfl

/-- A value greater than zero has no sign bit. -/
theorem msb_of_fgt_zero {x : F64} (h : fgt x 0 = true) : x.msb = false := by
  have hkey : orderKey 0 < orderKey x := by
    simp only [fgt, flt, Bool.and_eq_true, decide_eq_true_eq] at h
    exact h.2
  by_contra hx
  rw [show orderKey 0 = 0 by decide, orderKey, if_pos (by simpa using hx)] at hkey
  omega

/-- Settles O25; the sign bit of the result is clear since only values above zero are kept. -/
theorem reluRectifies : Obligations.ReluRectifies := by
  refine ⟨fun s x rest h hc => execRelu_completes h hc, fun x => ?_, fun s h => ?_, rfl⟩
  · split
    · next hx => exact msb_of_fgt_zero hx
    · decide
  · change execRelu s = _
    rw [execRelu, pop_nil h]
    rfl

/-! ### PUSH and the truncated operand (30_encoding.md R103, R104; 40_arith.md R135) -/

/-- An opcode whose operand is cut off decodes as truncated. -/
theorem decode_truncated {o : OpMap} {b : Byte} {rest : List Byte} {m : Mnemonic}
    (hm : o.lookup b = some m) (hl : rest.length < m.operandLength) :
    decode o (b :: rest) = .truncated m := by
  simp [decode, hm, hl]

/-- The window before the end of the program starts with the byte at the instruction pointer. -/
theorem fetchWindow_eq_cons {s : State} (h : s.ip < s.plen) :
    ∃ rest, fetchWindow s = Memory.read s.prog s.ip :: rest := by
  match hw : fetchWindow s with
  | [] =>
    have := fetchWindow_length s
    rw [hw, List.length_nil] at this
    omega
  | b :: rest =>
    have hb := fetchWindow_getElem (s := s) (k := 0) (by simp [hw])
    simp only [hw, List.getElem_cons_zero, Nat.add_zero] at hb
    exact ⟨rest, by rw [hb]⟩

theorem operandLength_le_eight (m : Mnemonic) : m.operandLength ≤ 8 := by
  cases m <;> decide

/-- A truncated operand halts, whatever the instruction (30_encoding.md R103, R104). -/
theorem step_of_truncatedAt {m : Mnemonic} {s : State} (h : TruncatedAt m s) :
    step s = .next (raise .decodePastEnd s) := by
  obtain ⟨hrun, hmap, hip, hbyte, hlen⟩ := h
  obtain ⟨rest, hw⟩ := fetchWindow_eq_cons hip
  have hl : rest.length < m.operandLength := by
    have hwl := fetchWindow_length s
    have := operandLength_le_eight m
    rw [hw, List.length_cons] at hwl
    rw [Mnemonic.length] at hlen
    omega
  have hd : decode s.opmap (fetchWindow s) = .truncated m := by
    rw [hw]
    exact decode_truncated (hbyte ▸ OpMap.lookup_byteOf hmap m) hl
  simp only [step, hrun, hd]

/-- Settles O22, from what `push` does with room and on a full stack. -/
theorem pushPushesLiteral : Obligations.PushPushesLiteral := by
  refine fun lit s => ⟨fun h => ?_, fun h => ?_, step_of_truncatedAt, rfl⟩
  · change execPush lit s = _
    rw [execPush, push_ok lit h]
    rfl
  · change execPush lit s = _
    rw [execPush, push_full lit h.ge]
    rfl

end Sys2Proof.Machine

/-! PROOFS. The global table (41_globals.md): GSTORE and GLOAD, whose index is checked before the stack. -/

namespace Sys2Proof.Machine

/-! ### GSTORE (41_globals.md R150) -/

theorem execGstore_completes {imm : I32} {s : State} (h0 : 0 ≤ imm.toInt) (hg : imm.toInt < s.globalCap)
    {v : F64} {rest : List F64} (hs : s.stack = v :: rest) :
    execGstore imm s = .next { s with
      stack := rest, globals := s.globals.set imm.toInt.toNat v, ip := s.ip + 5 } := by
  rw [execGstore, globalIndex_some h0 hg, pop_cons hs]
  rfl

theorem execGstore_invalidIndex {imm : I32} {s : State} (h : imm.toInt < 0 ∨ s.globalCap ≤ imm.toInt) :
    execGstore imm s = .next (raise .invalidGlobalIndex s) := by
  rw [execGstore, globalIndex_none h]
  rfl

theorem execGstore_underflow {imm : I32} {s : State} (h0 : 0 ≤ imm.toInt) (hg : imm.toInt < s.globalCap)
    (hs : s.stack = []) : execGstore imm s = .next (raise .stackUnderflow s) := by
  rw [execGstore, globalIndex_some h0 hg, pop_nil hs]
  rfl

/-- Settles O28, by the outcomes of the index check and of `pop`. -/
theorem gstoreStoresGlobal : Obligations.GstoreStoresGlobal := fun _ _ =>
  ⟨fun h0 hg _ _ hs => execGstore_completes h0 hg hs, execGstore_invalidIndex,
    fun h0 hg hs => execGstore_underflow h0 hg hs, step_of_truncatedAt, rfl⟩

/-! ### GLOAD (41_globals.md R151) -/

/-- An index below `GLOBAL_CAP` names a cell, and `gload` reads it (10_state.md R31). -/
theorem getElem?_globals_eq_gload {i : Nat} {s : State} (h : i < s.globalCap) :
    s.globals[i]? = some (gload i s) := by
  rw [State.globalCap] at h
  simp [gload, h]

theorem execGload_completes {imm : I32} {s : State} (h0 : 0 ≤ imm.toInt) (hg : imm.toInt < s.globalCap)
    (hc : s.stack.length < s.stackCap) :
    execGload imm s = .next { s with
      stack := gload imm.toInt.toNat s :: s.stack, ip := s.ip + 5 } := by
  rw [execGload, globalIndex_some h0 hg]
  simp only [push_ok _ hc]
  rfl

theorem execGload_invalidIndex {imm : I32} {s : State} (h : imm.toInt < 0 ∨ s.globalCap ≤ imm.toInt) :
    execGload imm s = .next (raise .invalidGlobalIndex s) := by
  rw [execGload, globalIndex_none h]
  rfl

theorem execGload_overflow {imm : I32} {s : State} (h0 : 0 ≤ imm.toInt) (hg : imm.toInt < s.globalCap)
    (hc : s.stackCap ≤ s.stack.length) : execGload imm s = .next (raise .stackOverflow s) := by
  rw [execGload, globalIndex_some h0 hg]
  simp only [push_full _ hc]
  rfl

/-- Settles O29, by the outcomes of the index check and of `push`; the value pushed is the cell's. -/
theorem gloadPushesGlobal : Obligations.GloadPushesGlobal := by
  refine fun imm s => ⟨fun h0 hg hc => ?_, execGload_invalidIndex,
    fun h0 hg hc => execGload_overflow h0 hg hc.ge, step_of_truncatedAt, rfl⟩
  have hi : imm.toInt.toNat < s.globalCap := by omega
  exact ⟨gload imm.toInt.toNat s, getElem?_globals_eq_gload hi, execGload_completes h0 hg hc⟩

end Sys2Proof.Machine

/-! PROOFS. Vectors (42_vector.md): the exact conversion of an integer, the index a handle denotes, and MKVEC,
whose four checks come before anything is popped or allocated. -/

namespace Sys2Proof.Machine

/-! ### The conversion of an integer (42_vector.md R161) -/

/-- A quotient without remainder is not rounded. -/
theorem divNearestEven_mul_self (m : Nat) {q : Nat} (hq : 0 < q) : divNearestEven (m * q) q = m := by
  rw [divNearestEven, Nat.mul_mod_left, Nat.mul_div_cancel m hq, if_neg (by omega)]

/-- A significand of at most 53 bits is packed without rounding, whatever the scale. -/
theorem roundPack_exact (neg : Bool) {n e : Nat} (hn : n < 2 ^ 53) (he : e ≤ 2044) :
    isFinite (roundPack neg (n * 2 ^ e) 1) = true ∧
      magnitude (roundPack neg (n * 2 ^ e) 1) = n * 2 ^ e := by
  have hlt : n * 2 ^ e < 2 ^ (53 + e) := by
    rw [pow_add]
    exact Nat.mul_lt_mul_of_pos_right hn (by positivity)
  have hrange : 2 ^ (53 + e) ≤ 2 ^ 2 ^ 12 := Nat.pow_le_pow_right (by norm_num) (by omega)
  obtain ⟨k, m, hpack, hm, hm53, hk, -⟩ :=
    roundPack_parts one_pos (by rw [one_mul]; exact hlt.trans_le hrange)
  have hke : k ≤ e := by
    rcases hk with rfl | ⟨-, hle⟩
    · exact Nat.zero_le e
    · rw [mul_one, show 0x10000000000000 = 2 ^ 52 by norm_num, ← pow_add] at hle
      have := (Nat.pow_lt_pow_iff_right (by norm_num)).1 (hle.trans_lt hlt)
      omega
  have hsplit : n * 2 ^ e = n * 2 ^ (e - k) * 2 ^ k := by
    rw [mul_assoc, ← pow_add, Nat.sub_add_cancel hke]
  have hexact : m * 2 ^ k = n * 2 ^ e := by
    rw [hm, one_mul, hsplit, divNearestEven_mul_self _ (by positivity)]
  have hfin : k * 0x10000000000000 + m < 0x7FF0000000000000 := by omega
  rw [hpack, Nat.min_eq_left hfin.le, magnitude_pack neg hm53 (hk.imp_right And.left) hfin, hexact]
  refine ⟨?_, rfl⟩
  rw [isFinite, (fields_pack neg hfin.le).1, decide_eq_true_eq]
  omega

theorem f64OfNat_msb (n : Nat) : (f64OfNat n).msb = false := roundPack_msb false _ _

theorem f64OfNat_finite {n : Nat} (hn : n < 2 ^ 53) : isFinite (f64OfNat n) = true := by
  rw [f64OfNat, unit_eq]
  exact (roundPack_exact false hn (by norm_num)).1

/-- The conversion keeps the value. -/
theorem scaled_f64OfNat {n : Nat} (hn : n < 2 ^ 53) : scaled (f64OfNat n) = n * 2 ^ 1074 := by
  have hmag : magnitude (f64OfNat n) = n * 2 ^ 1074 := by
    rw [f64OfNat, unit_eq]
    exact (roundPack_exact false hn (by norm_num)).2
  rw [scaled_def, f64OfNat_msb, hmag, if_neg Bool.false_ne_true, Nat.cast_mul, Nat.cast_pow,
    Nat.cast_ofNat]

/-- Settles O55: an integer below 2^53 is a significand that `roundPack` does not round. -/
theorem integerConversionIsExact : Obligations.IntegerConversionIsExact :=
  ⟨fun n hn => ⟨f64OfNat_finite hn, scaled_f64OfNat hn, f64OfNat_msb n⟩, by decide⟩

/-! ### Handles (42_vector.md R162) -/

/-- A value is a natural number of units when its magnitude is that number and it is not below zero. -/
theorem scaled_eq_natCast_iff (v : F64) (n : Nat) :
    scaled v = n ↔ magnitude v = n ∧ (v.msb = false ∨ magnitude v = 0) := by
  rw [scaled_def]
  cases v.msb
  · simp
  · simp only [Bool.true_eq_false, false_or, if_true]
    omega

theorem handleIndex_eq_some_iff (v : F64) (vc i : Nat) :
    handleIndex v vc = some i ↔ isFinite v = true ∧ scaled v = i * 2 ^ 1074 ∧ i < vc := by
  have hunit : 0 < unit := by rw [unit_eq]; positivity
  have hvalue : scaled v = i * 2 ^ 1074 ↔
      magnitude v = i * unit ∧ (v.msb = false ∨ magnitude v = 0) := by
    rw [← scaled_eq_natCast_iff, unit_eq, Nat.cast_mul, Nat.cast_pow, Nat.cast_ofNat]
  rw [hvalue, handleIndex, Option.ite_none_right_eq_some, Option.some.injEq]
  constructor
  · rintro ⟨⟨hfin, hint, hsign, hlt⟩, rfl⟩
    exact ⟨hfin, ⟨(Nat.div_mul_cancel (Nat.dvd_of_mod_eq_zero hint)).symm, hsign⟩, hlt⟩
  · rintro ⟨hfin, ⟨hmag, hsign⟩, hlt⟩
    have hdiv : magnitude v / unit = i := by rw [hmag, Nat.mul_div_cancel i hunit]
    exact ⟨⟨hfin, by rw [hmag, Nat.mul_mod_left], hsign, hdiv ▸ hlt⟩, hdiv⟩

/-- Settles O56; the conversion of a descriptor index is exact, so it denotes the index. -/
theorem handlesDenoteIndices : Obligations.HandlesDenoteIndices := by
  refine ⟨handleIndex_eq_some_iff, fun vc i hi hvc => ?_⟩
  have hn : i < 2 ^ 53 := by omega
  exact (handleIndex_eq_some_iff _ vc i).2 ⟨f64OfNat_finite hn, scaled_f64OfNat hn, hi⟩

/-! ### Allocation (42_vector.md R160, R163) -/

/-- The new cells, from `hp` on, hold the given values in order. -/
theorem allocate_cells_new {imm : I32} {values : List F64} {v : VectorHeap} {j : Nat}
    (hhp : v.hp ≤ v.cells.length) (hj : j < values.length) :
    (allocate imm values v).cells[v.hp + j]? = values[j]? := by
  have hpre : (v.cells.take v.hp).length = v.hp := List.length_take_of_le hhp
  rw [allocate, List.getElem?_append_right (by omega), hpre, Nat.add_sub_cancel_left,
    List.getElem?_append_left hj]

/-- Every other cell keeps its value. -/
theorem allocate_cells_old {imm : I32} {values : List F64} {v : VectorHeap} {j : Nat}
    (hhp : v.hp ≤ v.cells.length) (hj : j < v.hp ∨ v.hp + values.length ≤ j) :
    (allocate imm values v).cells[j]? = v.cells[j]? := by
  have hpre : (v.cells.take v.hp).length = v.hp := List.length_take_of_le hhp
  rw [allocate]
  rcases hj with hj | hj
  · rw [List.getElem?_append_left (by omega), List.getElem?_take_of_lt hj]
  · rw [List.getElem?_append_right (by omega), List.getElem?_append_right (by omega), hpre,
      List.getElem?_drop]
    congr 1
    omega

/-- The popped values reversed are in stack order: the deepest one first. -/
theorem getElem?_reverse_take {stack : List F64} {n j : Nat} (hn : n ≤ stack.length) (hj : j < n) :
    (stack.take n).reverse[j]? = stack[n - 1 - j]? := by
  have hlen : (stack.take n).length = n := List.length_take_of_le hn
  rw [List.getElem?_reverse (by omega), hlen, List.getElem?_take_of_lt (by omega)]

/-! ### MKVEC (42_vector.md R163) -/

theorem execMkvec_invalidSize {imm : I32} {s : State} (h : imm.toInt ≤ 0) :
    execMkvec imm s = .next (raise .invalidVectorSize s) := by
  rw [execMkvec, if_pos h]
  rfl

theorem execMkvec_outOfMemory {imm : I32} {s : State} (h0 : 0 < imm.toInt)
    (hh : s.heapCap < s.vh.hp + imm.toInt.toNat) :
    execMkvec imm s = .next (raise .outOfMemory s) := by
  rw [execMkvec, if_neg h0.not_ge, if_pos hh]
  rfl

theorem execMkvec_tooManyVectors {imm : I32} {s : State} (h0 : 0 < imm.toInt)
    (hh : s.vh.hp + imm.toInt.toNat ≤ s.heapCap) (hv : s.vecCap ≤ s.vh.vc) :
    execMkvec imm s = .next (raise .tooManyVectors s) := by
  rw [execMkvec, if_neg h0.not_ge, if_neg hh.not_gt, if_pos hv]
  rfl

theorem execMkvec_insufficientOperands {imm : I32} {s : State} (h0 : 0 < imm.toInt)
    (hh : s.vh.hp + imm.toInt.toNat ≤ s.heapCap) (hv : s.vh.vc < s.vecCap)
    (hs : s.stack.length < imm.toInt.toNat) :
    execMkvec imm s = .next (raise .insufficientOperands s) := by
  rw [execMkvec, if_neg h0.not_ge, if_neg hh.not_gt, if_neg hv.not_ge, if_pos hs]
  rfl

theorem execMkvec_completes {imm : I32} {s : State} (h0 : 0 < imm.toInt)
    (hh : s.vh.hp + imm.toInt.toNat ≤ s.heapCap) (hv : s.vh.vc < s.vecCap)
    (hs : imm.toInt.toNat ≤ s.stack.length) :
    execMkvec imm s = .next { s with
      stack := f64OfNat s.vh.vc :: s.stack.drop imm.toInt.toNat
      vh := allocate imm (s.stack.take imm.toInt.toNat).reverse s.vh
      ip := s.ip + 5 } := by
  rw [execMkvec, if_neg h0.not_ge, if_neg hh.not_gt, if_neg hv.not_ge, if_neg hs.not_gt]
  rfl

/-- Settles O31, by the outcomes of the four checks and the cells of the heap after an allocation. -/
theorem mkvecAllocatesVector : Obligations.MkvecAllocatesVector := by
  refine fun imm s => ⟨execMkvec_invalidSize, execMkvec_outOfMemory,
    fun h0 hh hv => execMkvec_tooManyVectors h0 hh hv.ge, execMkvec_insufficientOperands,
    fun n hn h0 hh hv hs => ?_, step_of_truncatedAt, rfl⟩
  obtain rfl : n = imm.toInt.toNat := by omega
  have hlen : (s.stack.take imm.toInt.toNat).reverse.length = imm.toInt.toNat := by
    rw [List.length_reverse, List.length_take_of_le hs]
  have hhp : s.vh.hp ≤ s.vh.cells.length := (Nat.le_add_right _ _).trans hh
  refine ⟨allocate imm (s.stack.take imm.toInt.toNat).reverse s.vh,
    execMkvec_completes (by omega) hh hv hs, congrArg (s.vh.hp + ·) hlen, rfl, rfl,
    fun j hj => ?_, fun j hj => ?_⟩
  · rw [allocate_cells_new hhp (hlen.symm ▸ hj), getElem?_reverse_take hs hj]
  · exact allocate_cells_old hhp (hlen.symm ▸ hj)

end Sys2Proof.Machine

/-! PROOFS. Control (43_control.md): JMPF, JMP and HALT, and the two steps that are no instruction's, at the
end of the program and at an unassigned opcode byte. -/

namespace Sys2Proof.Machine

/-! ### Jumps (43_control.md R181, R182, R186) -/

/-- A jump to a target within the program changes the instruction pointer alone. -/
theorem jump_ok {imm : I32} {s : State} {t : Nat} (h : (s.ip : Int) + 5 + imm.toInt = t) (ht : t ≤ s.plen) :
    jump imm s = .ok { s with ip := t } :=
  jump_eq_ok.2 ⟨t, jumpTarget_some h ht, rfl⟩

theorem jump_invalidTarget {imm : I32} {s : State}
    (h : (s.ip : Int) + 5 + imm.toInt < 0 ∨ s.plen < (s.ip : Int) + 5 + imm.toInt) :
    jump imm s = .error (.raise .invalidJumpTarget) :=
  jump_eq_error.2 ⟨jumpTarget_none h, rfl⟩

/-- On a zero of either sign JMPF pops it and jumps. -/
theorem execJmpf_of_zero {imm : I32} {s : State} {c : F64} {rest : List F64} (hs : s.stack = c :: rest)
    (hc : fisZero c = true) : execJmpf imm s = settle s (jump imm { s with stack := rest }) := by
  rw [execJmpf, pop_cons hs, ok_bind]
  exact congrArg (settle s) (if_pos hc)

/-- On any other condition JMPF pops it and falls through; the offset is not looked at. -/
theorem execJmpf_of_not_zero {imm : I32} {s : State} {c : F64} {rest : List F64} (hs : s.stack = c :: rest)
    (hc : fisZero c = false) : execJmpf imm s = .next { s with stack := rest, ip := s.ip + 5 } := by
  rw [execJmpf, pop_cons hs, ok_bind]
  exact congrArg (settle s) (if_neg (Bool.eq_false_iff.1 hc))

theorem execJmpf_underflow {imm : I32} {s : State} (hs : s.stack = []) :
    execJmpf imm s = .next (raise .stackUnderflow s) := by
  rw [execJmpf, pop_nil hs, error_bind, settle_raise]

/-- Settles O34, by the outcomes of `pop`, of the zero test and of the jump after it. -/
theorem jmpfJumpsOnZero : Obligations.JmpfJumpsOnZero := by
  refine fun imm s => ⟨fun c rest hs => ⟨fun hc t ht hp => ?_, fun hc h => ?_, execJmpf_of_not_zero hs⟩,
    execJmpf_underflow, step_of_truncatedAt, rfl⟩
  · change execJmpf imm s = _
    rw [execJmpf_of_zero hs hc, jump_ok (s := { s with stack := rest }) ht hp, settle_ok]
  · change execJmpf imm s = _
    rw [execJmpf_of_zero hs hc, jump_invalidTarget (s := { s with stack := rest }) h, settle_raise]

/-- Settles O35, by the two outcomes of a jump. -/
theorem jmpJumps : Obligations.JmpJumps := by
  refine fun imm s => ⟨fun t ht hp => ?_, fun h => ?_, step_of_truncatedAt, rfl⟩
  · change execJmp imm s = _
    rw [execJmp, jump_ok ht hp, settle_ok]
  · change execJmp imm s = _
    rw [execJmp, jump_invalidTarget h, settle_raise]

/-! ### Halts (43_control.md R183, R184, R185) -/

/-- Settles O36: HALT has one outcome, which looks at no part of the state but the instruction pointer. -/
theorem haltHaltsCleanly : Obligations.HaltHaltsCleanly := ⟨fun _ => rfl, rfl⟩

/-- At the end of the program there is no byte to fetch. -/
theorem fetchWindow_eq_nil {s : State} (h : s.ip = s.plen) : fetchWindow s = [] := by
  rw [← List.length_eq_zero_iff, fetchWindow_length, h, Nat.sub_self, Nat.min_zero]

/-- A byte that no mnemonic has decodes as unknown, whatever follows it (30_encoding.md R107). -/
theorem decode_unknown {o : OpMap} {b : Byte} (h : ∀ m, o.byteOf m ≠ b) (rest : List Byte) :
    decode o (b :: rest) = .unknown b := by
  rw [decode, OpMap.lookup_eq_none.2 h]

/-- Settles O7: with no byte to fetch, the step is the halt at the end of the program. -/
theorem endOfProgramHaltsCleanly : Obligations.EndOfProgramHaltsCleanly := by
  intro s hrun hend
  have hd : decode s.opmap (fetchWindow s) = .endOfProgram := by rw [fetchWindow_eq_nil hend, decode]
  simp only [step, hrun, hd, haltAtEnd]

/-- Settles O8: the byte at the instruction pointer decodes as unknown, and the step raises the error. -/
theorem unknownOpcodeHalts : Obligations.UnknownOpcodeHalts := by
  intro s hrun hip hbyte
  obtain ⟨rest, hw⟩ := fetchWindow_eq_cons hip
  have hd : decode s.opmap (fetchWindow s) = .unknown (Memory.read s.prog s.ip) := by
    rw [hw, decode_unknown hbyte]
  simp only [step, hrun, hd]
  rfl

end Sys2Proof.Machine

/-! PROOFS. Input and output (44_io.md): PRINT, which peeks, emits and only then pops. -/

namespace Sys2Proof.Machine

/-! ### PRINT (44_io.md R190) -/

theorem execPrint_completes {s : State} {v : F64} {rest : List F64} (hs : s.stack = v :: rest) :
    execPrint s = .next { s with
      stack := rest, events := s.events ++ [.print v], ip := s.ip + 1 } := by
  have hpop : pop (emit (.print v) s) = .ok (v, { emit (.print v) s with stack := rest }) :=
    pop_cons ((emit_stack _ s).trans hs)
  rw [execPrint, peek_cons hs, ok_bind, hpop, ok_bind]
  rfl

/-- On an empty stack the peek fails, before the event is emitted. -/
theorem execPrint_underflow {s : State} (hs : s.stack = []) :
    execPrint s = .next (raise .stackUnderflow s) := by
  rw [execPrint, peek_nil hs, error_bind, settle_raise]

/-- Settles O37, by the two outcomes of the peek. -/
theorem printEmitsAndPops : Obligations.PrintEmitsAndPops :=
  ⟨fun _ _ _ => execPrint_completes, fun _ => execPrint_underflow, rfl⟩

end Sys2Proof.Machine

/-! PROOFS. Persistence (45_persist.md): the place of each field in an image. -/

namespace Sys2Proof.Machine

/-! ### The layout of an image (45_persist.md R201, R202) -/

theorem encodeImage_length (v : VectorHeap) :
    (encodeImage v).length = 8 + 8 * v.cells.length + 8 * v.table.length := by
  simp only [encodeImage, List.length_append, leBytes_length, flatMap8_length f64Le_length,
    flatMap8_length descriptorLe_length]
  omega

/-- An image opens with `hp`. -/
theorem take_encodeImage (v : VectorHeap) : (encodeImage v).take 4 = i32Le (BitVec.ofNat 32 v.hp) := by
  rw [encodeImage, List.take_left' (leBytes_length 4 v.hp), leBytes_four]

/-- After `hp` comes `vc`. -/
theorem take_drop_four_encodeImage (v : VectorHeap) :
    ((encodeImage v).drop 4).take 4 = i32Le (BitVec.ofNat 32 v.vc) := by
  rw [encodeImage, List.drop_left' (leBytes_length 4 v.hp), List.take_left' (leBytes_length 4 v.vc),
    leBytes_four]

/-- After the two counts come the cells, then the descriptors. -/
theorem drop_eight_encodeImage (v : VectorHeap) :
    (encodeImage v).drop 8 = v.cells.flatMap f64Le ++ v.table.flatMap descriptorLe := by
  rw [encodeImage, ← List.append_assoc, List.drop_left' (by simp)]

/-- The descriptors fill the rest of an image after its cells. -/
theorem drop_cells_encodeImage (v : VectorHeap) :
    (encodeImage v).drop (8 + 8 * v.cells.length) = v.table.flatMap descriptorLe := by
  rw [← List.drop_drop, drop_eight_encodeImage, List.drop_left' (flatMap8_length f64Le_length _)]

theorem cell_at_encodeImage {v : VectorHeap} {j : Nat} {x : F64} (h : v.cells[j]? = some x) :
    ((encodeImage v).drop (8 + 8 * j)).take 8 = f64Le x := by
  rw [← List.drop_drop, drop_eight_encodeImage]
  exact flatMap8_drop_take f64Le_length _ j x _ h

theorem descriptor_at_encodeImage {v : VectorHeap} {i : Nat} {d : Descriptor} (h : v.table[i]? = some d) :
    ((encodeImage v).drop (8 + 8 * v.cells.length + 8 * i)).take 8 = descriptorLe d := by
  rw [← List.drop_drop, drop_cells_encodeImage]
  simpa only [List.append_nil] using flatMap8_drop_take descriptorLe_length v.table i d [] h

/-- The two halves of a descriptor's eight bytes are its size and its base. -/
theorem descriptor_fields_of_take_eight {b : List Byte} {d : Descriptor} (h : b.take 8 = descriptorLe d) :
    b.take 4 = i32Le d.size ∧ (b.drop 4).take 4 = i32Le d.base := by
  constructor
  · calc b.take 4 = (b.take 8).take 4 := by rw [List.take_take]; rfl
      _ = i32Le d.size := by rw [h, descriptorLe, List.take_left' (i32Le_length _)]
  · calc (b.drop 4).take 4 = (b.take 8).drop 4 := by rw [List.drop_take]
      _ = i32Le d.base := by rw [h, descriptorLe, List.drop_left' (i32Le_length _)]

/-- Settles O43: each field is found by dropping the parts of the image before it. -/
theorem imageLayout : Obligations.ImageLayout := by
  refine fun v => ⟨encodeImage_length v, take_encodeImage v, take_drop_four_encodeImage v,
    fun _ _ => cell_at_encodeImage, fun i d hd => ?_⟩
  simpa only [List.drop_drop] using descriptor_fields_of_take_eight (descriptor_at_encodeImage hd)

end Sys2Proof.Machine

/-! PROOFS. Exceptions (60_exceptions.md): what an instruction that halts leaves of the state before it. -/

namespace Sys2Proof.Machine

/-! ### Fatal errors are precise (60_exceptions.md R226) -/

/-- Every instruction but HALT either leaves `STATE` as it is, or takes one of the fatal errors in the state
it started from, whatever part of its work was done before the error was found. -/
theorem exec_keeps_engine_or_raises {i : Instr} {s t : State} (hi : i ≠ .halt) (h : exec i s = .next t) :
    t.engine = s.engine ∨ ∃ c : Cause, 3 ≤ c.code ∧ t = raise c s := by
  have fatal {c : Cause} (hc : 3 ≤ c.code := by decide) :
      (raise c s).engine = s.engine ∨ ∃ c' : Cause, 3 ≤ c'.code ∧ raise c s = raise c' s :=
    .inr ⟨c, hc, rfl⟩
  cases i
  case halt => exact absurd rfl hi
  case push =>
    obtain ⟨-, rfl⟩ | rfl := execPush_next h
    exacts [.inl rfl, fatal]
  case add | sub | mul =>
    obtain ⟨_, _, _, -, -, rfl⟩ | rfl | ⟨-, rfl⟩ := computed_next h
    exacts [.inl rfl, fatal, fatal]
  case div =>
    obtain ⟨_, _, _, -, -, -, rfl⟩ | rfl | rfl | ⟨-, rfl⟩ := execDiv_next h
    exacts [.inl rfl, fatal, fatal, fatal]
  case relu =>
    obtain ⟨_, _, -, -, rfl⟩ | rfl | ⟨-, rfl⟩ := execRelu_next h
    exacts [.inl rfl, fatal, fatal]
  case gt | lt | eq =>
    obtain ⟨_, _, _, -, -, rfl⟩ | rfl | ⟨-, rfl⟩ := compared_next h
    exacts [.inl rfl, fatal, fatal]
  case print =>
    obtain ⟨_, _, -, rfl⟩ | rfl := execPrint_next h
    exacts [.inl rfl, fatal]
  case gstore =>
    obtain ⟨_, _, _, -, -, rfl⟩ | rfl | rfl := execGstore_next h
    exacts [.inl rfl, fatal, fatal]
  case gload =>
    obtain ⟨_, -, -, rfl⟩ | rfl | rfl := execGload_next h
    exacts [.inl rfl, fatal, fatal]
  case mkvec =>
    obtain ⟨-, -, -, -, rfl⟩ | rfl | rfl | rfl | rfl := execMkvec_next h
    exacts [.inl rfl, fatal, fatal, fatal, fatal]
  case dot =>
    obtain ⟨_, _, _, _, -, -, rfl⟩ | rfl | rfl | rfl | ⟨-, rfl⟩ := execDot_next h
    exacts [.inl rfl, fatal, fatal, fatal, fatal]
  case jmpf =>
    obtain ⟨_, _, _, -, rfl, -⟩ | rfl | rfl := execJmpf_next h
    exacts [.inl rfl, fatal, fatal]
  case jmp =>
    obtain ⟨_, -, rfl⟩ | rfl := execJmp_next h
    exacts [.inl rfl, fatal]
  case rand =>
    obtain ⟨-, _, _, rfl⟩ | rfl := execRand_next h
    exacts [.inl rfl, fatal]
  case input =>
    obtain ⟨-, _, _, rfl⟩ | ⟨-, rfl⟩ := execInput_next h
    exacts [.inl rfl, fatal]
  case hsave =>
    obtain ⟨_, _, rfl⟩ := execHsave_next h
    exact .inl rfl
  case hload =>
    obtain ⟨_, _, rfl⟩ := execHload_next h
    exact .inl rfl

/-- Settles O16: HALT has its own effect; any other instruction changes `STATE` by raising alone. -/
theorem fatalErrorsArePrecise : Obligations.FatalErrorsArePrecise := by
  intro i s t hrun h hhalt
  by_cases hi : i = .halt
  · subst hi
    exact .inl ⟨rfl, execHalt_next h⟩
  obtain hkeep | ⟨c, hc, rfl⟩ := exec_keeps_engine_or_raises hi h
  · rw [hhalt, hrun] at hkeep
    cases hkeep
  · exact .inr ⟨c, hc, rfl⟩

end Sys2Proof.Machine

/-! PROOFS. Reset (70_reset_and_hazards.md): what it leaves, from whatever state it is asserted in. -/

namespace Sys2Proof.Machine

/-- A core built with configuration `c` has configuration `c` (00_scope.md R5). -/
@[simp] theorem resetWith_config (c : Config) : (State.resetWith c).config = c := by
  simp [State.resetWith, State.config, State.globalCap, State.heapCap, State.vecCap]

@[simp] theorem assertReset_config (s : State) : (assertReset s).config = s.config :=
  resetWith_config s.config

/-- Settles O57: every field but the configuration is read off `assertReset`; the capacities in the
configuration are lengths of the arrays that reset makes anew. -/
theorem resetLeavesResetState : Obligations.ResetLeavesResetState :=
  fun s => ⟨rfl, rfl, rfl, rfl, rfl, rfl, rfl, rfl, rfl, rfl, rfl, rfl, rfl, assertReset_config s,
    rfl, rfl, rfl, rfl⟩

end Sys2Proof.Machine

/-! PROOFS. Encoding (30_encoding.md): decoding and encoding are inverse to each other, and the four outcomes
of decoding at an address of the program. -/

namespace Sys2Proof

/-! ### Decoding bytes (30_encoding.md R100 to R110) -/

/-- Operand bytes of the right number are those of the instruction they give. -/
theorem operandBytes_instrOf {m : Mnemonic} {b : List Byte} (h : b.length = m.operandLength) :
    (instrOf m b).operandBytes = b := by
  cases m
  case push => exact f64Le_leF64 h
  case gstore | gload | mkvec | jmpf | jmp => exact i32Le_leI32 h
  all_goals exact (List.length_eq_zero_iff.1 h).symm

/-- An assigned byte with all its operand bytes decodes to the instruction of that operand. -/
theorem decode_complete {o : OpMap} {b : Byte} {rest : List Byte} {m : Mnemonic}
    (hm : o.lookup b = some m) (hl : m.operandLength ≤ rest.length) :
    decode o (b :: rest) = .insn (instrOf m (rest.take m.operandLength)) m.length := by
  simp [decode, hm, hl.not_gt]

/-- Only the empty byte sequence is the end of the program. -/
theorem decode_cons_ne_endOfProgram (o : OpMap) (b : Byte) (rest : List Byte) :
    decode o (b :: rest) ≠ .endOfProgram := by
  rw [decode]
  split
  · exact Decoded.noConfusion
  · split <;> exact Decoded.noConfusion

/-- What decodes as unknown is an opcode byte that no mnemonic has. -/
theorem unassigned_of_decode_unknown {o : OpMap} {b c : Byte} {rest : List Byte}
    (h : decode o (b :: rest) = .unknown c) : ∀ m, o.byteOf m ≠ b := by
  rw [← OpMap.lookup_eq_none]
  cases hl : o.lookup b with
  | none => rfl
  | some m => rw [decode, hl] at h; dsimp only at h; split at h <;> cases h

/-- What decodes as truncated is the opcode byte of the mnemonic, with an operand cut off. -/
theorem assigned_of_decode_truncated {o : OpMap} {b : Byte} {rest : List Byte} {m : Mnemonic}
    (h : decode o (b :: rest) = .truncated m) : o.byteOf m = b ∧ rest.length < m.operandLength := by
  cases hl : o.lookup b with
  | none => rw [decode, hl] at h; cases h
  | some m' =>
    rw [decode, hl] at h
    dsimp only at h
    split at h <;> cases h
    exact ⟨OpMap.byteOf_of_lookup hl, ‹_›⟩

/-- What decodes to an instruction is the opcode byte of its mnemonic and its operand bytes. -/
theorem parts_of_decode_insn {o : OpMap} {bytes : List Byte} {i : Instr} {n : Nat}
    (h : decode o bytes = .insn i n) : ∃ rest, bytes = o.byteOf i.mnemonic :: rest ∧
      i.mnemonic.operandLength ≤ rest.length ∧
      i = instrOf i.mnemonic (rest.take i.mnemonic.operandLength) ∧ n = i.length := by
  match bytes with
  | [] => cases h
  | b :: rest =>
    cases hl : o.lookup b with
    | none => rw [decode, hl] at h; cases h
    | some m =>
      rw [decode, hl] at h
      dsimp only at h
      split at h <;> cases h
      next hlen =>
      rw [Instr.length, instrOf_mnemonic]
      exact ⟨rest, by rw [OpMap.byteOf_of_lookup hl], not_lt.1 hlen, rfl, rfl⟩

/-- Settles O1: the opcode byte is found in the map, and the operand bytes give the operand back. -/
theorem decodeInvertsEncode : Obligations.DecodeInvertsEncode := by
  intro o i rest ho
  have htake : (i.operandBytes ++ rest).take i.mnemonic.operandLength = i.operandBytes :=
    List.take_left' (operandBytes_length i)
  rw [encode, List.cons_append, decode_complete (OpMap.lookup_byteOf ho _) (by simp), htake,
    instrOf_operandBytes, Instr.length]

/-- Settles O2, from the parts of bytes that decode to an instruction. -/
theorem encodeInvertsDecode : Obligations.EncodeInvertsDecode := by
  intro o bytes i n h
  obtain ⟨rest, rfl, hlen, hi, rfl⟩ := parts_of_decode_insn h
  have hoperand : i.operandBytes = rest.take i.mnemonic.operandLength := by
    rw [hi, operandBytes_instrOf (by simpa using hlen), ← hi]
  rw [Instr.length, Mnemonic.length, Nat.add_comm]
  exact ⟨rfl, by simpa using hlen, by rw [encode, hoperand, List.take_succ_cons]⟩

/-- Settles O5, by evaluating the decoder on the seven words. -/
theorem specWordsDecode : Obligations.SpecWordsDecode := ⟨rfl, rfl, rfl, rfl, rfl, rfl, rfl⟩

/-! ### Little-endian operands (20_memory.md R67) -/

/-- The bits of the left part stand above those of the right part. -/
theorem toNat_append_eq {m n : Nat} (x : BitVec m) (y : BitVec n) :
    (x ++ y).toNat = x.toNat * 2 ^ n + y.toNat := by
  rw [BitVec.toNat_append, ← Nat.shiftLeft_add_eq_or_of_lt y.isLt, Nat.shiftLeft_eq]

theorem leI32_eq_append (b0 b1 b2 b3 : Byte) : leI32 [b0, b1, b2, b3] = b3 ++ b2 ++ b1 ++ b0 := by
  have := leNat_lt [b0, b1, b2, b3]
  apply BitVec.eq_of_toNat_eq
  simp only [leI32, leNat, BitVec.toNat_ofNat, toNat_append_eq, List.length_cons, List.length_nil] at this ⊢
  omega

theorem leF64_eq_append (b0 b1 b2 b3 b4 b5 b6 b7 : Byte) :
    leF64 [b0, b1, b2, b3, b4, b5, b6, b7] = b7 ++ b6 ++ b5 ++ b4 ++ b3 ++ b2 ++ b1 ++ b0 := by
  have := leNat_lt [b0, b1, b2, b3, b4, b5, b6, b7]
  apply BitVec.eq_of_toNat_eq
  simp only [leF64, leNat, BitVec.toNat_ofNat, toNat_append_eq, List.length_cons, List.length_nil] at this ⊢
  omega

/-- Settles O4: reading is concatenation with the last byte highest, and laying out inverts reading. -/
theorem operandsAreLittleEndian : Obligations.OperandsAreLittleEndian :=
  ⟨fun b0 b1 b2 b3 => ⟨leI32_eq_append b0 b1 b2 b3, leI32_eq_append b0 b1 b2 b3 ▸ i32Le_leI32 rfl⟩,
    fun b0 b1 b2 b3 b4 b5 b6 b7 => ⟨leF64_eq_append b0 b1 b2 b3 b4 b5 b6 b7,
      leF64_eq_append b0 b1 b2 b3 b4 b5 b6 b7 ▸ f64Le_leF64 rfl⟩⟩

namespace Machine

/-! ### Decoding at an address (30_encoding.md R110) -/

/-- The window before the end of the program is the opcode byte and the bytes that follow it. -/
theorem fetchWindow_eq_cons_map {s : State} (h : s.ip < s.plen) :
    fetchWindow s = Memory.read s.prog s.ip ::
      (List.range (min 8 (s.plen - s.ip - 1))).map fun k => Memory.read s.prog (s.ip + 1 + k) := by
  have hlen : min 9 (s.plen - s.ip) = min 8 (s.plen - s.ip - 1) + 1 := by omega
  rw [fetchWindow, hlen, List.range_succ_eq_map, List.map_cons, List.map_map]
  simp [Function.comp_def, Nat.add_assoc, Nat.add_comm 1]

/-- Settles O3, from the opcode byte's place in the map and the number of bytes that follow it. -/
theorem decodeFollowsProgramStore : Obligations.DecodeFollowsProgramStore := by
  intro s ho hip
  refine ⟨fun h => by rw [fetchWindow_eq_nil h, decode], fun h hb => ?_,
    fun m h hb => ⟨fun hl => ?_, fun hl => ?_⟩⟩
  · rw [fetchWindow_eq_cons_map h, decode_unknown hb]
  all_goals
    have hm : s.opmap.lookup (Memory.read s.prog s.ip) = some m := hb ▸ OpMap.lookup_byteOf ho m
    have h8 := operandLength_le_eight m
    rw [Mnemonic.length] at hl
    rw [fetchWindow_eq_cons_map h]
  · exact decode_truncated hm (by simp; omega)
  · rw [decode_complete hm (by simp; omega), ← List.map_take, List.take_range,
      Nat.min_eq_left (by omega)]

/-! ### Steps by the outcome of decoding (43_control.md R188) -/

/-- Settles O6: a running engine's step is `exec` of what was decoded. -/
theorem stepRunsDecodedInstruction : Obligations.StepRunsDecodedInstruction := fun s i n hrun hd => by
  simp only [step, hrun, hd]

/-- Settles O9: the step raises the error, which is spelled out. -/
theorem truncatedOperandHalts : Obligations.TruncatedOperandHalts := fun _ _ => step_of_truncatedAt

/-- Settles O10: a halted engine's step is the fault, and a step with a next state began running. -/
theorem noStepFromHalted : Obligations.NoStepFromHalted :=
  ⟨fun s h => by rw [step, h], fun _ _ h => (step_next h).1⟩

/-- Settles O11, by the definitions of `raise` and of the code numbers. -/
theorem raiseChangesOnlyStatus : Obligations.RaiseChangesOnlyStatus :=
  ⟨fun _ _ => rfl, by decide⟩

end Machine

end Sys2Proof

/-! PROOFS. The whole machine: what an instruction that completes leaves of the state before it, said once. -/

namespace Sys2Proof.Machine

/-! ### What a completed instruction leaves -/

/-- How a completed instruction may leave the vector heap: as it was, after one allocation (MKVEC), or as a
well-formed image describes it (HLOAD). -/
inductive HeapChange (i : Instr) (s t : State) : Prop where
  | same (h : t.vh = s.vh)
  | allocated (imm : I32) (hi : i = .mkvec imm) (hpos : 0 < imm.toInt)
      (hroom : s.vh.hp + imm.toInt.toNat ≤ s.heapCap) (htable : s.vh.vc < s.vecCap)
      (hstack : imm.toInt.toNat ≤ s.stack.length)
      (h : t.vh = allocate imm (s.stack.take imm.toInt.toNat).reverse s.vh)
  | loaded (hi : i = .hload) (b : List Byte) (h : decodeImage s.heapCap s.vecCap b = some t.vh)

/-- The events an instruction may add: at most three, and a `Diag` among them is a warning of its row with its
own address (60_exceptions.md R223, R228). -/
def AddsEvents (i : Instr) (s : State) (new : List Event) : Prop :=
  new.length ≤ 3 ∧ ∀ code a, .diag code a ∈ new → a = s.ip ∧ ∃ w ∈ warningsOf i.mnemonic, code = w.code

/-- What every instruction that completes from `s` in `t` keeps, and what it may change. -/
structure Completes (i : Instr) (s t : State) : Prop where
  prog : t.prog = s.prog
  plen : t.plen = s.plen
  progCap : t.progCap = s.progCap
  stackCap : t.stackCap = s.stackCap
  opmap : t.opmap = s.opmap
  globals : t.globals.length = s.globals.length
  status : (t.engine = s.engine ∧ t.cause = s.cause) ∨ (i = .halt ∧ t.engine = .halted ∧ t.cause = .haltInsn)
  ip : t.ip = s.ip + i.length ∨ t.ip ≤ s.plen
  stack : s.stack.length ≤ s.stackCap → t.stack.length ≤ s.stackCap
  slot : i ≠ .hsave → t.slot = s.slot
  events : ∃ new, t.events = s.events ++ new ∧ AddsEvents i s new
  heap : HeapChange i s t

theorem addsEvents_of_no_diag {i : Instr} {s : State} {new : List Event} (h : new.length ≤ 3)
    (hd : ∀ code a, .diag code a ∉ new) : AddsEvents i s new :=
  ⟨h, fun code a hm => absurd hm (hd code a)⟩

/-- Events without a `Diag`, then the warning there may be. -/
theorem addsEvents_append_warning {i : Instr} {s : State} {new : List Event} {w : Option Warning}
    (h : new.length ≤ 2) (hd : ∀ code a, .diag code a ∉ new) (hw : ∀ x ∈ w, x ∈ warningsOf i.mnemonic) :
    AddsEvents i s (new ++ (w.map fun x => Event.diag x.code s.ip).toList) := by
  refine ⟨by cases w <;> simp <;> omega, fun code a hm => ?_⟩
  have hm := (List.mem_append.1 hm).resolve_left (hd code a)
  cases w with
  | none => simp at hm
  | some x =>
    simp only [Option.map_some, Option.toList_some, List.mem_singleton, Event.diag.injEq] at hm
    exact ⟨hm.2, x, hw x rfl, hm.1⟩

/-- Most instructions write only the stack, the globals, the instruction pointer, the history and the model's
own fields. -/
theorem completes_of_writes {i : Instr} {s : State} {stack globals : List F64} {ip draws : Nat}
    {new : List Event} {prompted : Bool} {host : HostAnswers}
    (hstack : s.stack.length ≤ s.stackCap → stack.length ≤ s.stackCap)
    (hip : ip = s.ip + i.length ∨ ip ≤ s.plen)
    (hglobals : globals.length = s.globals.length := by rfl)
    (hnew : AddsEvents i s new := by exact addsEvents_of_no_diag (by simp) (by simp)) :
    Completes i s { s with
      stack := stack, globals := globals, ip := ip, draws := draws, events := s.events ++ new
      prompted := prompted, host := host } :=
  ⟨rfl, rfl, rfl, rfl, rfl, hglobals, .inl ⟨rfl, rfl⟩, hip, hstack, fun _ => rfl, ⟨new, rfl, hnew⟩, .same rfl⟩

/-- The same without events. -/
theorem completes_silently {i : Instr} {s : State} {stack globals : List F64} {ip draws : Nat}
    (hstack : s.stack.length ≤ s.stackCap → stack.length ≤ s.stackCap)
    (hip : ip = s.ip + i.length ∨ ip ≤ s.plen)
    (hglobals : globals.length = s.globals.length := by rfl) :
    Completes i s { s with stack := stack, globals := globals, ip := ip, draws := draws } :=
  ⟨rfl, rfl, rfl, rfl, rfl, hglobals, .inl ⟨rfl, rfl⟩, hip, hstack, fun _ => rfl,
    ⟨[], (List.append_nil _).symm, addsEvents_of_no_diag (by simp) (by simp)⟩, .same rfl⟩

theorem execHsave_completes {s t : State} (h : execHsave s = .next t) : Completes .hsave s t := by
  obtain ⟨a, hst, rfl⟩ := execHsave_next h
  refine ⟨rfl, rfl, rfl, rfl, rfl, rfl, .inl ⟨rfl, rfl⟩, .inl rfl, id, fun hi => absurd rfl hi,
    ⟨_, List.append_assoc _ _ _, addsEvents_append_warning (by simp) (by simp) ?_⟩, .same rfl⟩
  cases a <;> simp [writeWarning, warningsOf, Instr.mnemonic]

/-- HLOAD leaves the heap and warns, or takes the heap of a well-formed image. -/
theorem loadOutcome_cases (bytes : Option (List Byte)) (s : State) :
    ((loadOutcome bytes s).1 = s.vh ∧ ∃ w ∈ warningsOf .hload, (loadOutcome bytes s).2 = some w) ∨
      ∃ b v, decodeImage s.heapCap s.vecCap b = some v ∧ loadOutcome bytes s = (v, none) := by
  cases bytes with
  | none => exact .inl ⟨rfl, .persistReadFailure, by decide, rfl⟩
  | some b =>
    cases hb : decodeImage s.heapCap s.vecCap b with
    | none => simp [loadOutcome, hb, warningsOf]
    | some v => exact .inr ⟨b, v, hb, by rw [loadOutcome, hb]⟩

theorem execHload_completes {s t : State} (h : execHload s = .next t) : Completes .hload s t := by
  obtain ⟨a, hst, rfl⟩ := execHload_next h
  have hcases := loadOutcome_cases (delivered s.slot a) s
  refine ⟨rfl, rfl, rfl, rfl, rfl, rfl, .inl ⟨rfl, rfl⟩, .inl rfl, id, fun _ => rfl,
    ⟨_, List.append_assoc _ _ _, addsEvents_append_warning (by simp) (by simp) fun x hx => ?_⟩, ?_⟩
  · obtain ⟨-, w, hw, hsome⟩ | ⟨b, v, -, hload⟩ := hcases
    · rw [hsome] at hx
      cases hx
      exact hw
    · rw [hload] at hx
      cases hx
  · obtain ⟨hsame, -⟩ | ⟨b, v, hb, hload⟩ := hcases
    · exact .same hsame
    · exact .loaded rfl b (by rw [hload]; exact hb)

theorem execMkvec_completes_or_raises {imm : I32} {s t : State} (h : execMkvec imm s = .next t) :
    Completes (.mkvec imm) s t ∨ ∃ c ∈ haltCauses .mkvec, t = raise c s := by
  obtain ⟨hpos, hroom, htable, hstack, rfl⟩ | rfl | rfl | rfl | rfl := execMkvec_next h
  · refine .inl ⟨rfl, rfl, rfl, rfl, rfl, rfl, .inl ⟨rfl, rfl⟩, .inl rfl, fun hc => ?_, fun _ => rfl,
      ⟨[], (List.append_nil _).symm, addsEvents_of_no_diag (by simp) (by simp)⟩,
      .allocated imm rfl hpos hroom htable hstack rfl⟩
    simp only [List.length_cons, List.length_drop]
    omega
  all_goals exact .inr ⟨_, by decide, rfl⟩

/-- Every instruction completes, or takes a fatal error in the state it started from; within the stack's bound
the error is one of its row (60_exceptions.md R223, R226). -/
theorem exec_completes_or_raises {i : Instr} {s t : State} (h : exec i s = .next t) :
    Completes i s t ∨
      ∃ c, (s.stack.length ≤ s.stackCap → c ∈ haltCauses i.mnemonic) ∧ t = raise c s := by
  have fatal {c : Cause}
      (hc : c ∈ haltCauses i.mnemonic := by simp [haltCauses, Instr.mnemonic]) : Completes i s (raise c s) ∨
      ∃ c', (s.stack.length ≤ s.stackCap → c' ∈ haltCauses i.mnemonic) ∧ raise c s = raise c' s :=
    .inr ⟨c, fun _ => hc, rfl⟩
  have overfull {c : Cause} (hc : s.stackCap < s.stack.length) : Completes i s (raise c s) ∨
      ∃ c', (s.stack.length ≤ s.stackCap → c' ∈ haltCauses i.mnemonic) ∧ raise c s = raise c' s :=
    .inr ⟨c, fun hle => absurd hc hle.not_gt, rfl⟩
  cases i
  case halt =>
    obtain rfl := execHalt_next h
    exact .inl ⟨rfl, rfl, rfl, rfl, rfl, rfl, .inr ⟨rfl, rfl, rfl⟩, .inl rfl, id, fun _ => rfl,
      ⟨[], (List.append_nil _).symm, addsEvents_of_no_diag (by simp) (by simp)⟩, .same rfl⟩
  case push =>
    obtain ⟨hl, rfl⟩ | rfl := execPush_next h
    exacts [.inl (completes_silently (fun _ => hl) (.inl rfl)), fatal]
  case add | sub | mul =>
    obtain ⟨a, b, rest, hs, hl, rfl⟩ | rfl | ⟨hl, rfl⟩ := computed_next h
    exacts [.inl (completes_silently (fun _ => hl) (.inl rfl)), fatal, overfull (by omega)]
  case div =>
    obtain ⟨a, b, rest, hs, hl, -, rfl⟩ | rfl | rfl | ⟨hl, rfl⟩ := execDiv_next h
    exacts [.inl (completes_silently (fun _ => hl) (.inl rfl)), fatal, fatal, overfull (by omega)]
  case relu =>
    obtain ⟨x, rest, hs, hl, rfl⟩ | rfl | ⟨hl, rfl⟩ := execRelu_next h
    exacts [.inl (completes_silently (fun _ => hl) (.inl rfl)), fatal, overfull (by omega)]
  case gt | lt | eq =>
    obtain ⟨a, b, rest, hs, hl, rfl⟩ | rfl | ⟨hl, rfl⟩ := compared_next h
    exacts [.inl (completes_silently (fun _ => hl) (.inl rfl)), fatal, overfull (by omega)]
  case print =>
    obtain ⟨v, rest, hs, rfl⟩ | rfl := execPrint_next h
    · exact .inl (completes_of_writes (fun hc => by simp [hs] at hc; omega) (.inl rfl))
    · exact fatal
  case gstore =>
    obtain ⟨g, v, rest, -, hs, rfl⟩ | rfl | rfl := execGstore_next h
    · exact .inl (completes_silently (fun hc => by simp [hs] at hc; omega) (.inl rfl) List.length_set)
    all_goals exact fatal
  case gload =>
    obtain ⟨g, -, hl, rfl⟩ | rfl | rfl := execGload_next h
    exacts [.inl (completes_silently (fun _ => hl) (.inl rfl)), fatal, fatal]
  case mkvec =>
    obtain hc | ⟨c, hc, rfl⟩ := execMkvec_completes_or_raises h
    exacts [.inl hc, fatal hc]
  case dot =>
    obtain ⟨_, _, rest, r, hs, hl, rfl⟩ | rfl | rfl | rfl | ⟨hl, rfl⟩ := execDot_next h
    exacts [.inl (completes_silently (fun _ => hl) (.inl rfl)), fatal, fatal, fatal, overfull (by omega)]
  case jmpf =>
    obtain ⟨c, rest, a, hs, rfl, ha⟩ | rfl | rfl := execJmpf_next h
    · exact .inl (completes_silently (fun hc => by simp [hs] at hc; omega)
        (ha.imp And.right fun h => jumpTarget_le h.2))
    all_goals exact fatal
  case jmp =>
    obtain ⟨a, ha, rfl⟩ | rfl := execJmp_next h
    exacts [.inl (completes_silently id (.inr (jumpTarget_le ha))), fatal]
  case rand =>
    obtain ⟨hl, w, hst, rfl⟩ | rfl := execRand_next h
    exacts [.inl (completes_of_writes (fun _ => hl) (.inl rfl)), fatal]
  case input =>
    obtain ⟨hl, a, hst, rfl⟩ | ⟨-, rfl⟩ := execInput_next h
    · refine .inl ⟨rfl, rfl, rfl, rfl, rfl, rfl, .inl ⟨rfl, rfl⟩, .inl rfl, fun _ => hl, fun _ => rfl,
        ⟨_, (congrArg (· ++ _) (List.append_assoc _ _ _)).trans (List.append_assoc _ _ _),
          addsEvents_append_warning (by split <;> simp) (by split <;> simp) ?_⟩, .same rfl⟩
      cases a <;> simp [inputWarning, warningsOf, Instr.mnemonic]
    · exact fatal
  case hsave => exact .inl (execHsave_completes h)
  case hload => exact .inl (execHload_completes h)

end Sys2Proof.Machine

/-! PROOFS. The invariant of reachable states and the properties every step has, from what a completed
instruction leaves. -/

namespace Sys2Proof.Machine

/-! ### What a step can do -/

/-- What a step does: it halts at the end of the program or at an unassigned byte, takes a fatal error of the
row of the mnemonic it stands at, or runs an instruction that completes (43_control.md R188). -/
inductive StepCase (s t : State) : Prop where
  | endOfProgram (hw : fetchWindow s = []) (h : t = haltAtEnd s)
  | unknown (hip : s.ip < s.plen) (hbyte : ∀ m, s.opmap.byteOf m ≠ Memory.read s.prog s.ip)
      (h : t = raise .unknownOpcode s)
  | raised (m : Mnemonic) (hip : s.ip < s.plen) (hbyte : s.opmap.byteOf m = Memory.read s.prog s.ip)
      (c : Cause) (hc : s.stack.length ≤ s.stackCap → c ∈ haltCauses m) (h : t = raise c s)
  | completed (i : Instr) (hip : s.ip + i.length ≤ s.plen)
      (hbyte : s.opmap.byteOf i.mnemonic = Memory.read s.prog s.ip)
      (hd : decode s.opmap (fetchWindow s) = .insn i i.length) (h : Completes i s t)

/-- Only an instruction with an operand can be truncated, and each of these has the cause in its row. -/
theorem decodePastEnd_mem_haltCauses {m : Mnemonic} (h : 0 < m.operandLength) :
    .decodePastEnd ∈ haltCauses m := by
  cases m <;> simp [haltCauses] <;> exact absurd h (by decide)

/-- Every next state of a step is one of these. -/
theorem step_cases {s t : State} (h : step s = .next t) : StepCase s t := by
  obtain ⟨-, hcases⟩ := step_next h
  rcases Nat.lt_or_ge s.ip s.plen with hip | hip
  · obtain ⟨rest, hw⟩ := fetchWindow_eq_cons hip
    rw [hw] at hcases
    obtain ⟨hd, -⟩ | ⟨b, hd, rfl⟩ | ⟨m, hd, rfl⟩ | ⟨i, n, hd, hexec⟩ := hcases
    · exact absurd hd (decode_cons_ne_endOfProgram _ _ _)
    · exact .unknown hip (unassigned_of_decode_unknown hd) rfl
    · obtain ⟨hbyte, hlen⟩ := assigned_of_decode_truncated hd
      exact .raised m hip hbyte _ (fun _ => decodePastEnd_mem_haltCauses (by omega)) rfl
    · obtain ⟨rest', heq, hlen, -, rfl⟩ := parts_of_decode_insn hd
      obtain ⟨hbyte, rfl⟩ := List.cons.inj heq
      obtain hc | ⟨c, hc, rfl⟩ := exec_completes_or_raises hexec
      · refine .completed i ?_ hbyte.symm (hw ▸ hd) hc
        have hwlen := fetchWindow_length s
        rw [hw, List.length_cons] at hwlen
        rw [Instr.length, Mnemonic.length]
        omega
      · exact .raised i.mnemonic hip hbyte.symm c hc rfl
  · have hw : fetchWindow s = [] := by
      rw [← List.length_eq_zero_iff, fetchWindow_length]
      omega
    rw [hw, decode] at hcases
    obtain ⟨-, rfl⟩ | ⟨_, hd, -⟩ | ⟨_, hd, -⟩ | ⟨_, _, hd, -⟩ := hcases
    · exact .endOfProgram hw rfl
    all_goals cases hd

/-! ### Program store and configuration (10_state.md R24, 20_memory.md R77) -/

/-- The arrays of the vector heap keep their lengths. -/
theorem Completes.heap_lengths {i : Instr} {s t : State} (h : Completes i s t) :
    t.vh.cells.length = s.vh.cells.length ∧ t.vh.table.length = s.vh.table.length := by
  cases h.heap with
  | same hsame => rw [hsame]; exact ⟨rfl, rfl⟩
  | allocated imm _ _ hroom _ hstack halloc =>
    rw [halloc]
    refine ⟨allocate_cells_length ?_, allocate_table_length _ _ _⟩
    rwa [List.length_reverse, List.length_take_of_le hstack]
  | loaded _ b hb => exact (decodeImage_ok hb).2

theorem Completes.config {i : Instr} {s t : State} (h : Completes i s t) : t.config = s.config := by
  obtain ⟨hcells, htable⟩ := h.heap_lengths
  simp only [State.config, State.globalCap, State.heapCap, State.vecCap, h.progCap, h.stackCap, h.opmap,
    h.globals, hcells, htable]

/-- Settles O15: an error and the end of the program change only the status, and a completed instruction
keeps the program and the lengths of the arrays. -/
theorem programStoreIsImmutable : Obligations.ProgramStoreIsImmutable := by
  intro s t h
  have hkeep : t.prog = s.prog ∧ t.plen = s.plen ∧ t.config = s.config := by
    cases step_cases h with
    | endOfProgram _ ht => exact ht ▸ ⟨rfl, rfl, rfl⟩
    | unknown _ _ ht => exact ht ▸ ⟨rfl, rfl, rfl⟩
    | raised _ _ _ _ _ ht => exact ht ▸ ⟨rfl, rfl, rfl⟩
    | completed _ _ _ _ hc => exact ⟨hc.prog, hc.plen, hc.config⟩
  exact ⟨fun a => by rw [hkeep.1], hkeep⟩

/-! ### The output history and the slot (20_memory.md R80, R87) -/

/-- Settles O20: an error adds its `Diag`, a completed instruction at most three events. -/
theorem outputHistoryOnlyGrows : Obligations.OutputHistoryOnlyGrows := by
  intro s t h
  cases step_cases h with
  | endOfProgram _ ht => exact ⟨[], by simp [ht]⟩
  | unknown _ _ ht => exact ⟨[.diag 4 s.ip], by simp [ht, Cause.code]⟩
  | raised _ _ _ c _ ht => exact ⟨[.diag c.code s.ip], by simp [ht]⟩
  | completed _ _ _ _ hc =>
    obtain ⟨new, hev, hlen, -⟩ := hc.events
    exact ⟨new, hev, hlen⟩

/-- Settles O21: a completed instruction other than HSAVE leaves the slot, and so does an error. -/
theorem onlyHsaveWritesSlot : Obligations.OnlyHsaveWritesSlot := by
  intro s t h hd
  cases step_cases h with
  | endOfProgram _ ht => rw [ht, haltAtEnd_slot]
  | unknown _ _ ht => rw [ht, raise_slot]
  | raised _ _ _ _ _ ht => rw [ht, raise_slot]
  | completed i _ _ hi hc => exact hc.slot fun hs => hd _ (hs ▸ hi)

/-! ### Causes and warnings (60_exceptions.md R223) -/

theorem fetchWindow_ne_nil {s : State} (h : s.ip < s.plen) : fetchWindow s ≠ [] := by
  obtain ⟨rest, hw⟩ := fetchWindow_eq_cons h
  rw [hw]
  exact List.cons_ne_nil _ _

/-- Settles O17: the cause is that of the step's case; a step that runs on is a completed instruction, whose
events are its own. -/
theorem diagnosticsOfEachInstruction : Obligations.DiagnosticsOfEachInstruction := by
  intro s t hinv h
  have hrun := (step_next h).1
  cases step_cases h with
  | endOfProgram hw ht =>
    subst ht
    have hip : s.ip = s.plen := hinv.ip.eq_of_not_lt fun hlt => fetchWindow_ne_nil hlt hw
    exact ⟨fun _ => .inl ⟨hip, rfl⟩, fun hr => by cases hr⟩
  | unknown hip hbyte ht =>
    subst ht
    exact ⟨fun _ => .inr (.inl ⟨hip, hbyte, rfl⟩), fun hr => by cases hr⟩
  | raised m hip hbyte c hc ht =>
    subst ht
    exact ⟨fun _ => .inr (.inr ⟨m, hip, hbyte, hc hinv.stack⟩), fun hr => by cases hr⟩
  | completed i hip hbyte _ hc =>
    refine ⟨fun hhalt => ?_, fun _ new hnew code a hmem => ?_⟩
    · obtain ⟨heng, -⟩ | ⟨rfl, -, hcause⟩ := hc.status
      · rw [hhalt, hrun] at heng
        cases heng
      · refine .inr (.inr ⟨.halt, ?_, hbyte, by rw [hcause]; decide⟩)
        exact lt_of_lt_of_le (Nat.lt_add_of_pos_right (by decide)) hip
    · obtain ⟨new', hev, -, hdiag⟩ := hc.events
      obtain rfl := List.append_cancel_left (hev.symm.trans hnew)
      obtain ⟨ha, hw⟩ := hdiag code a hmem
      exact ⟨ha, i.mnemonic, hbyte, hw⟩

/-! ### The invariant of reachable states (10_state.md R22 to R25, R34) -/

theorem Inv.heapCap_le {s : State} (h : Inv s) : s.vh.cells.length ≤ 2147483647 := by
  have hc := h.config
  simp only [Config.WellFormed, capacityOk, Bool.and_eq_true, decide_eq_true_eq] at hc
  obtain ⟨⟨⟨_, hheap⟩, _⟩, _⟩ := hc
  exact hheap.2

theorem Inv.vecCap_le {s : State} (h : Inv s) : s.vh.table.length ≤ 2147483647 := by
  have hc := h.config
  simp only [Config.WellFormed, capacityOk, Bool.and_eq_true, decide_eq_true_eq] at hc
  obtain ⟨⟨_, hvec⟩, _⟩ := hc
  exact hvec.2

/-- An allocation that passed MKVEC's checks keeps the heap invariants, and so does an accepted image. -/
theorem HeapChange.heapOk {i : Instr} {s t : State} (h : HeapChange i s t) (hinv : Inv s) :
    heapOk t.vh = true := by
  cases h with
  | same hsame => rw [hsame]; exact hinv.heap
  | allocated imm _ hpos hroom htable hstack halloc =>
    have hlen : (s.stack.take imm.toInt.toNat).reverse.length = imm.toInt.toNat := by
      rw [List.length_reverse, List.length_take_of_le hstack]
    rw [halloc]
    exact heapOk_allocate hinv.heap (by omega) (by omega) (hlen.symm ▸ hroom) htable hinv.heapCap_le
  | loaded _ b hb => exact (decodeImage_ok hb).1

/-- No step ends inside the INPUT wait: inside it the step is an INPUT with room, which clears the flag, and
outside it the flag is kept or cleared. -/
theorem step_ends_outside_wait {s t : State} (hinv : Inv s) (h : step s = .next t) :
    t.prompted = false := by
  cases hp : s.prompted with
  | true =>
    obtain ⟨hrun, hd, hroom⟩ := hinv.wait hp
    rw [stepRunsDecodedInstruction s .input 1 hrun hd] at h
    obtain ⟨-, a, hst, rfl⟩ | ⟨hfull, -⟩ := execInput_next h
    · rfl
    · omega
  | false =>
    obtain ⟨-, ⟨-, rfl⟩ | ⟨_, -, rfl⟩ | ⟨_, -, rfl⟩ | ⟨i, n, -, hexec⟩⟩ := step_next h
    · exact hp
    · exact hp
    · exact hp
    · obtain hkeep | ⟨-, hclear⟩ := exec_prompted hexec
      · rw [hkeep, hp]
      · exact hclear

/-- Halting with a cause, outside the wait, keeps the invariant. -/
theorem Inv.of_halt {s t : State} (hinv : Inv s) (heng : t.engine = .halted) (hcause : t.cause ≠ .none)
    (hout : t.prompted = false) (hconfig : t.config = s.config := by rfl) (hprog : t.prog = s.prog := by rfl)
    (hplen : t.plen = s.plen := by rfl) (hip : t.ip = s.ip := by rfl) (hstack : t.stack = s.stack := by rfl)
    (hheap : t.vh = s.vh := by rfl) : Inv t where
  config := hconfig ▸ hinv.config
  cause := by simp [heng, hcause]
  canonical := hprog ▸ hinv.canonical
  within := by rw [hprog, hplen]; exact hinv.within
  ip := by rw [hip, hplen]; exact hinv.ip
  plen := by
    rw [hplen, show t.progCap = s.progCap from congrArg Config.progCap hconfig]
    exact hinv.plen
  stack := by
    rw [hstack, show t.stackCap = s.stackCap from congrArg Config.stackCap hconfig]
    exact hinv.stack
  heap := hheap ▸ hinv.heap
  wait := by simp [hout]

theorem ne_none_of_mem_haltCauses {m : Mnemonic} {c : Cause} (h : c ∈ haltCauses m) : c ≠ .none := by
  rintro rfl
  cases m <;> simp [haltCauses] at h

/-- A completed instruction keeps the invariant. -/
theorem Completes.inv {i : Instr} {s t : State} (h : Completes i s t) (hinv : Inv s)
    (hip : s.ip + i.length ≤ s.plen) (hout : t.prompted = false) : Inv t where
  config := h.config ▸ hinv.config
  cause := by
    obtain ⟨heng, hcause⟩ | ⟨-, heng, hcause⟩ := h.status
    · rw [heng, hcause]; exact hinv.cause
    · simp [heng, hcause]
  canonical := h.prog ▸ hinv.canonical
  within := by rw [h.prog, h.plen]; exact hinv.within
  ip := by rw [h.plen]; exact h.ip.elim (fun heq => heq ▸ hip) id
  plen := by rw [h.plen, h.progCap]; exact hinv.plen
  stack := by rw [h.stackCap]; exact h.stack hinv.stack
  heap := h.heap.heapOk hinv
  wait := by simp [hout]

/-- Settles O12, by the cases of a step: a halt, or a completed instruction. -/
theorem stepKeepsInvariant : Obligations.StepKeepsInvariant := by
  intro s t hinv h
  have hout := step_ends_outside_wait hinv h
  refine ⟨?_, hout⟩
  cases step_cases h with
  | endOfProgram _ ht => subst ht; exact hinv.of_halt rfl (by simp) hout
  | unknown _ _ ht => subst ht; exact hinv.of_halt rfl (by simp) hout
  | raised m _ _ c hc ht => subst ht; exact hinv.of_halt rfl (ne_none_of_mem_haltCauses (hc hinv.stack)) hout
  | completed i hip _ _ hc => exact hc.inv hinv hip hout

end Sys2Proof.Machine

/-! PROOFS. The heap between loads of an image (10_state.md R34, R35), the global table (R31), and reset and
load (70_reset_and_hazards.md). -/

namespace Sys2Proof.Machine

/-! ### The heap grows by allocation alone (10_state.md R34 (d), R35) -/

/-- A step that does not execute HLOAD leaves the heap as it is or makes one allocation. -/
theorem step_vh_cases {s t : State} (h : step s = .next t)
    (hd : ∀ n, decode s.opmap (fetchWindow s) ≠ .insn .hload n) :
    t.vh = s.vh ∨ ∃ (imm : I32) (values : List F64), imm.toInt = values.length ∧
      s.vh.hp + values.length ≤ s.vh.cells.length ∧ s.vh.vc < s.vh.table.length ∧
      t.vh = allocate imm values s.vh := by
  cases step_cases h with
  | endOfProgram _ ht => exact .inl (ht ▸ rfl)
  | unknown _ _ ht => exact .inl (ht ▸ rfl)
  | raised _ _ _ _ _ ht => exact .inl (ht ▸ rfl)
  | completed i _ _ hi hc =>
    cases hc.heap with
    | same hsame => exact .inl hsame
    | allocated imm _ hpos hroom htable hstack halloc =>
      have hlen : (s.stack.take imm.toInt.toNat).reverse.length = imm.toInt.toNat := by
        rw [List.length_reverse, List.length_take_of_le hstack]
      exact .inr ⟨imm, _, by omega, hlen.symm ▸ hroom, htable, halloc⟩
    | loaded hload => exact absurd (hload ▸ hi) (hd _)

theorem Inv.hp_le {s : State} (h : Inv s) : s.vh.hp ≤ s.vh.cells.length := by
  have hheap := h.heap
  simp only [heapOk, Bool.and_eq_true, decide_eq_true_eq] at hheap
  exact hheap.1.1

/-- Settles O18: an allocation writes the cells from `hp` on and the descriptor at `vc`. -/
theorem heapGrowsMonotonically : Obligations.HeapGrowsMonotonically := by
  intro s t hinv h hd
  obtain hsame | ⟨imm, values, -, -, -, halloc⟩ := step_vh_cases h hd
  · rw [hsame]
    exact ⟨le_rfl, le_rfl, fun _ _ => rfl, fun _ _ => rfl⟩
  · rw [halloc]
    exact ⟨Nat.le_add_right _ _, Nat.le_add_right _ _,
      fun j hj => allocate_cells_old hinv.hp_le (.inl hj), fun k hk => List.getElem?_set_ne hk.ne'⟩

/-- A descriptor that starts where the others end continues them. -/
theorem bumpFrom_append {hp : Nat} {d : Descriptor} (hd : d.base.toInt = hp) {hp' : Nat}
    (hp'_eq : (hp' : Int) = hp + d.size.toInt) :
    ∀ (l : List Descriptor) (base : Int), bumpFrom hp base l = true → bumpFrom hp' base (l ++ [d]) = true
  | [], base, h => by
    simp only [bumpFrom, decide_eq_true_eq] at h
    simp [bumpFrom, hd, h, hp'_eq]
  | e :: l, base, h => by
    simp only [bumpFrom, Bool.and_eq_true] at h
    simp only [List.cons_append, bumpFrom, Bool.and_eq_true]
    exact ⟨h.1, bumpFrom_append hd hp'_eq l _ h.2⟩

/-- Allocation keeps the canonical form: the new descriptor starts at `hp` and ends at the new `hp`. -/
theorem bumpForm_allocate {imm : I32} {values : List F64} {v : VectorHeap} (hlen : imm.toInt = values.length)
    (hvc : v.vc < v.table.length) (hhp : v.hp ≤ 2147483647) (h : bumpForm v = true) :
    bumpForm (allocate imm values v) = true := by
  have htake : (allocate imm values v).table.take (allocate imm values v).vc =
      v.table.take v.vc ++ [{ size := imm, base := BitVec.ofNat 32 v.hp }] := by
    simp only [allocate]
    rw [List.take_add_one, List.take_set_of_le le_rfl, List.getElem?_set_self hvc]
    rfl
  rw [bumpForm, htake]
  refine bumpFrom_append (toInt_ofNat_small hhp) ?_ _ _ h
  simp only [hlen, allocate, Nat.cast_add]

/-- Settles O19: without HLOAD the heap stays or takes one allocation. -/
theorem allocationKeepsBumpForm : Obligations.AllocationKeepsBumpForm := by
  intro s t hinv h hd hbump
  obtain hsame | ⟨imm, values, hlen, -, hvc, halloc⟩ := step_vh_cases h hd
  · rw [hsame]
    exact hbump
  · rw [halloc]
    exact bumpForm_allocate hlen hvc (hinv.hp_le.trans hinv.heapCap_le) hbump

/-! ### Reading a global after a store (10_state.md R31) -/

/-- A stored global reads as the stored value (10_state.md R31). -/
theorem gload_gstore_same {i : Nat} {s : State} (h : i < s.globalCap) (v : F64) :
    gload i (gstore i v s) = v := by
  rw [gload, gstore_globals, List.getD_eq_getElem?_getD, List.getElem?_set_self h, Option.getD_some]

theorem gload_gstore_ne {i j : Nat} (h : j ≠ i) (v : F64) (s : State) :
    gload j (gstore i v s) = gload j s := by
  rw [gload, gstore_globals, List.getD_eq_getElem?_getD, List.getElem?_set_ne h.symm,
    ← List.getD_eq_getElem?_getD, gload]

theorem globalIndex_eq_some {imm : I32} {cap i : Nat} (h : globalIndex imm cap = some i) :
    i = imm.toInt.toNat ∧ i < cap := by
  simp only [globalIndex, sext, Option.ite_none_right_eq_some, Option.some.injEq] at h
  omega

/-- Settles O30: a GSTORE that completes wrote the cell of its index, which is below `GLOBAL_CAP`. -/
theorem globalReadsAfterStore : Obligations.GlobalReadsAfterStore := by
  intro imm s t _ h hrun
  obtain ⟨i, v, rest, hi, hs, rfl⟩ | rfl | rfl := execGstore_next h
  · obtain ⟨rfl, hlt⟩ := globalIndex_eq_some hi
    exact ⟨List.length_set, ⟨v, by rw [hs, List.head?_cons], gload_gstore_same hlt v⟩,
      fun j hj => gload_gstore_ne hj v s⟩
  all_goals cases hrun

/-! ### Reset and load (70_reset_and_hazards.md R260, R263, R264) -/

/-- The empty program store is in canonical form. -/
theorem wf_nil : Memory.wf [] = true := rfl

/-- A core of a legal configuration with a program that was loaded after reset has the invariant, whatever the
host's side holds. -/
theorem inv_of_loaded {c : Config} (hc : c.WellFormed = true) {b : List Byte} (hb : b.length ≤ c.progCap)
    (slot : Option (List Byte)) (host : HostAnswers) (draws : Nat) :
    Inv { State.resetWith c with
      prog := Memory.writeBytes [] 0 b, plen := b.length, slot := slot, host := host, draws := draws } where
  config := (congrArg Config.WellFormed (resetWith_config c)).trans hc
  cause := iff_of_true rfl rfl
  canonical := Memory.writeBytes_wf wf_nil 0 b
  within := fun cell hcell => by
    obtain hnil | ⟨-, hlt⟩ := Memory.mem_writeBytes hcell
    · cases hnil
    · rwa [Nat.zero_add] at hlt
  ip := Nat.zero_le _
  plen := hb
  stack := Nat.zero_le _
  heap := by simp [State.resetWith, heapOk]
  wait := fun h => by cases h

/-- Settles O13: the state after reset is one in which the empty program was loaded. -/
theorem invariantAtReset : Obligations.InvariantAtReset :=
  have hreset (c : Config) (hc : c.WellFormed = true) : Inv (State.resetWith c) :=
    inv_of_loaded (b := []) hc (Nat.zero_le _) none {} 0
  ⟨fun c hc => ⟨hreset c hc, rfl⟩, hreset Config.default (by decide)⟩

/-- The load port accepts exactly the programs that fit. -/
theorem loadProgram_eq_some {b : List Byte} {s t : State} : loadProgram b s = some t ↔
    b.length ≤ s.progCap ∧ t = { s with prog := Memory.writeBytes [] 0 b, plen := b.length } := by
  rw [loadProgram, Option.ite_none_right_eq_some, Option.some.injEq, eq_comm (a := t)]

/-- Settles O14: what boot leaves is a loaded program in a core after reset. -/
theorem bootKeepsInvariant : Obligations.BootKeepsInvariant := by
  intro s t b hinv h
  obtain ⟨hb, rfl⟩ := loadProgram_eq_some.1 h
  exact ⟨inv_of_loaded hinv.config hb s.slot s.host s.draws, rfl⟩

/-- Settles O58: the bytes are written into an empty store, so each address below the length reads as its
byte. -/
theorem loadPortReplacesProgram : Obligations.LoadPortReplacesProgram := by
  refine fun b s => ⟨fun h => if_neg h.not_ge, fun h =>
    ⟨_, loadProgram_eq_some.2 ⟨h, rfl⟩, Memory.writeBytes_wf wf_nil 0 b, fun a ha => ?_⟩⟩
  rw [Memory.read_writeBytes wf_nil, if_pos (by omega), Nat.sub_zero, List.getD_eq_getElem _ _ ha,
    List.getElem?_eq_getElem ha]

/-- Settles O59: a halted engine has a cause other than NONE, and the clean causes have the codes 1 and 2. -/
theorem errorStatusIsUncleanEnd : Obligations.ErrorStatusIsUncleanEnd := by
  intro s hinv hhalt
  have hcause : s.cause ≠ .none := fun h => by
    rw [hinv.cause.2 h] at hhalt
    cases hhalt
  simp only [errorStatus, endedCleanly, hhalt, true_and, decide_eq_true_eq, decide_eq_false_iff_not]
  cases hc : s.cause
  case none => exact absurd hc hcause
  all_goals decide

/-! ### Placing a table word (43_control.md R188; log 15) -/

/-- The bytes of a placed word are what the next step fetches. -/
theorem fetchWindow_withFetchWord {s : State} (h : Memory.wf s.prog = true) (nbits w : Nat) :
    fetchWindow (s.withFetchWord nbits w) = tableBytes nbits w := by
  have hlen : (tableBytes nbits w).length = 9 := leBytes_length 9 _
  have hmin : min 9 (max s.plen (s.ip + 9) - s.ip) = 9 := by omega
  apply List.ext_getElem
  · rw [fetchWindow_length, hlen]
    exact hmin
  · intro k hk hk'
    have hread := Memory.read_writeBytes h s.ip (tableBytes nbits w) (s.ip + k)
    rw [if_pos (by omega), Nat.add_sub_cancel_left, List.getD_eq_getElem _ _ hk'] at hread
    rw [fetchWindow_getElem]
    exact hread

/-- Settles O60: the placed bytes decode to the instruction of the word, and the engine runs. -/
theorem placedWordIsExecuted : Obligations.PlacedWordIsExecuted := by
  intro s nbits w i hmap hwf h
  obtain ⟨n, hn⟩ : ∃ n, decode OpMap.default (tableBytes nbits w) = .insn i n := by
    unfold decodeTableWord at h
    split at h <;> cases h
    next n hn => exact ⟨n, hn⟩
  refine stepRunsDecodedInstruction _ i n rfl ?_
  rw [fetchWindow_withFetchWord hwf]
  exact hmap ▸ hn

end Sys2Proof.Machine

/-! PROOFS. The host's ports (20_memory.md R85 to R87): what each request leaves, and RAND and INPUT
(44_io.md) with their answers. -/

namespace Sys2Proof.Machine

/-! ### RAND (44_io.md R192) -/

/-- A request for a random value gives the ready answer, else a free value, and touches only its own port. -/
theorem askRandom_spec (s : State) : ∃ (w : BitVec 64) (h : HostAnswers),
    askRandom s = (randomValue w,
      { s with events := s.events ++ [.randReq], host := h, draws := s.draws + 1 }) ∧
    (∀ w' rest, s.host.randoms = w' :: rest → w = w' ∧ h = { s.host with randoms := rest }) ∧
    (s.host.randoms = [] → h = s.host) := by
  unfold askRandom
  cases s.host.randoms with
  | nil => exact ⟨_, s.host, rfl, fun _ _ hr => (by cases hr), fun _ => rfl⟩
  | cons w rest =>
    exact ⟨w, { s.host with randoms := rest }, rfl, fun _ _ hr => (by cases hr; exact ⟨rfl, rfl⟩),
      fun hr => (by cases hr)⟩

theorem execRand_overflow {s : State} (h : s.stackCap ≤ s.stack.length) :
    execRand s = .next (raise .stackOverflow s) := by
  rw [execRand, if_neg h.not_gt, settle_raise]

/-- Settles O38, from what the request gives: every answer is in the range, and one in the range is itself. -/
theorem randPushesAdmissibleValue : Obligations.RandPushesAdmissibleValue := by
  refine ⟨fun s hroom => ?_, fun s hfull => execRand_overflow hfull.ge, rfl⟩
  obtain ⟨w, h, hask, hready, hnone⟩ := askRandom_spec s
  refine ⟨randomValue w, h, ?_, Nat.le_of_lt_succ (randomValue_lt w), fun w' rest hr => ?_, hnone⟩
  · change execRand s = _
    rw [execRand, if_pos hroom, hask]
    dsimp only
    rw [push_ok _ (by exact hroom)]
    rfl
  · obtain ⟨rfl, hh⟩ := hready w' rest hr
    exact ⟨hh, fun hle => randomValue_self (Nat.lt_succ_of_le hle)⟩

/-! ### INPUT (44_io.md R194) -/

theorem execInput_overflow {s : State} (h : s.stackCap ≤ s.stack.length) :
    execInput s = .next (raise .stackOverflow s) := by
  rw [execInput, if_neg h.not_gt, settle_raise]

/-- Settles O39: with an answer to come INPUT does not fault, and the answer is a value or a failure. -/
theorem inputPushesAnswer : Obligations.InputPushesAnswer := by
  refine ⟨fun s hroom hanswer => ?_, fun s hfull => execInput_overflow hfull.ge, rfl⟩
  obtain ⟨hnone, hsilent, -⟩ | ⟨a, h, hready, hempty, hexec⟩ := execInput_room hroom
  · simp [hnone, hsilent] at hanswer
  refine ⟨a, h, hready, fun hl => (hempty hl).2, ?_⟩
  change (∃ v, a = .value v ∧ execInput s = _) ∨ (a = .parseFail ∧ execInput s = _)
  rw [hexec]
  cases a with
  | value v => exact .inl ⟨v, rfl, by simp [inputValue, inputWarning]⟩
  | parseFail => exact .inr ⟨rfl, by simp [inputValue, inputWarning, Warning.code, posZero]⟩

/-! ### The wait inside INPUT (44_io.md R195, 10_state.md R38) -/

theorem awaitLine_of_not_prompted {s : State} (h : s.prompted = false) :
    awaitLine s = { s with prompted := true, events := s.events ++ [.prompt] } := by
  simp [awaitLine, h, emit]

@[simp] theorem awaitLine_config (s : State) : (awaitLine s).config = s.config := by
  simp [State.config, State.globalCap, State.heapCap, State.vecCap]

@[simp] theorem awaitLine_statusPort (s : State) : statusPort (awaitLine s) = statusPort s := by
  simp [statusPort, State.sp]

/-- Inside the wait the request is the one it was before. -/
@[simp] theorem askLine_awaitLine (s : State) : askLine (awaitLine s) = askLine s := by
  simp [askLine]

/-- With room INPUT's outcome does not tell whether the wait had been entered. -/
theorem execInput_awaitLine {s : State} (hroom : s.stack.length < s.stackCap) :
    execInput (awaitLine s) = execInput s := by
  rw [execInput, execInput, if_pos hroom, if_pos (by simpa using hroom), askLine_awaitLine]
  cases h : askLine s with
  | error e =>
    obtain ⟨-, -, rfl⟩ := askLine_eq_error.1 h
    rfl
  | ok au =>
    obtain ⟨a, u⟩ := au
    obtain ⟨hst, rfl, -, -⟩ := askLine_eq_ok h
    simp only [ok_bind]
    rw [push_ok _ (by exact hroom)]
    rfl

/-- INPUT faults exactly with room, no ready answer and a silent host. -/
theorem execInput_eq_inputWait (s : State) : execInput s = .fault .inputWait ↔
    s.stack.length < s.stackCap ∧ s.host.lines = [] ∧ s.host.silent = true := by
  rcases Nat.lt_or_ge s.stack.length s.stackCap with hroom | hfull
  · obtain ⟨hnone, hsilent, hexec⟩ | ⟨a, h, -, hempty, hexec⟩ := execInput_room hroom
    · exact iff_of_true hexec ⟨hroom, hnone, hsilent⟩
    · refine iff_of_false (by simp [hexec]) fun ⟨_, hnone, hsilent⟩ => ?_
      rw [(hempty hnone).1] at hsilent
      cases hsilent
  · exact iff_of_false (by simp [execInput_overflow hfull]) fun h => h.1.not_ge hfull

/-- The invariant holds inside the wait of an INPUT with room. -/
theorem Inv.awaitLine {s : State} (hinv : Inv s) (hrun : s.engine = .running)
    (hd : decode s.opmap (fetchWindow s) = .insn .input 1) (hroom : s.stack.length < s.stackCap) :
    Inv (awaitLine s) where
  config := by simpa using hinv.config
  cause := by simpa using hinv.cause
  canonical := by simpa using hinv.canonical
  within := by simpa using hinv.within
  ip := by simpa using hinv.ip
  plen := by simpa using hinv.plen
  stack := by simpa using hinv.stack
  heap := by simpa using hinv.heap
  wait := fun _ => by
    rw [fetchWindow_congr (awaitLine_prog s) (awaitLine_plen s) (awaitLine_ip s)]
    simp [hrun, hd, hroom]

/-- Settles O40, from the one fault of INPUT and from what entering the wait leaves. -/
theorem inputWaitsForAnswer : Obligations.InputWaitsForAnswer :=
  ⟨execInput_eq_inputWait, fun _ => awaitLine_of_not_prompted, fun s =>
    ⟨awaitLine_awaitLine s, awaitLine_statusPort s, execInput_awaitLine, Inv.awaitLine⟩⟩

end Sys2Proof.Machine

/-! PROOFS. Persistence (45_persist.md): HSAVE and HLOAD over the slot port. -/

namespace Sys2Proof.Machine

/-! ### HSAVE and HLOAD (45_persist.md R205, R206) -/

/-- A slot write gives the ready answer, else a free one, and touches only its own port. -/
theorem askWrite_spec (s : State) : ∃ h : HostAnswers,
    (askWrite s).2 = { s with
      events := s.events ++ [.slotWrite (encodeImage s.vh)], host := h, draws := s.draws + 1 } ∧
    (∀ a rest, s.host.writes = a :: rest → (askWrite s).1 = a ∧ h = { s.host with writes := rest }) ∧
    (s.host.writes = [] → h = s.host) := by
  unfold askWrite
  cases s.host.writes with
  | nil => exact ⟨s.host, rfl, fun _ _ hr => (by cases hr), fun _ => rfl⟩
  | cons a rest =>
    exact ⟨{ s.host with writes := rest }, rfl, fun _ _ hr => (by cases hr; exact ⟨rfl, rfl⟩),
      fun hr => (by cases hr)⟩

/-- Settles O41, by the two answers to the slot write. -/
theorem hsaveWritesImage : Obligations.HsaveWritesImage := by
  refine ⟨fun s => ?_, rfl⟩
  obtain ⟨h, hask, hready, hnone⟩ := askWrite_spec s
  refine ⟨(askWrite s).1, h, hready, hnone, ?_⟩
  change (_ ∧ execHsave s = _) ∨ ∃ after, _ ∧ execHsave s = _
  rw [execHsave, hask]
  cases (askWrite s).1 with
  | ok => exact .inl ⟨rfl, by simp [written, warn, writeWarning, slotAfter, advance]⟩
  | fail after =>
    exact .inr ⟨after, rfl, by simp [written, warn, writeWarning, slotAfter, advance, Warning.code]⟩

/-- A slot read gives the ready answer, else a free one, and touches only its own port. -/
theorem askRead_spec (s : State) : ∃ h : HostAnswers,
    (askRead s).2 = { s with events := s.events ++ [.slotRead], host := h, draws := s.draws + 1 } ∧
    (∀ a rest, s.host.reads = a :: rest → (askRead s).1 = a ∧ h = { s.host with reads := rest }) ∧
    (s.host.reads = [] → h = s.host) := by
  unfold askRead
  cases s.host.reads with
  | nil => exact ⟨s.host, rfl, fun _ _ hr => (by cases hr), fun _ => rfl⟩
  | cons a rest =>
    exact ⟨{ s.host with reads := rest }, rfl, fun _ _ hr => (by cases hr; exact ⟨rfl, rfl⟩),
      fun hr => (by cases hr)⟩

theorem loaded_of_failure {s : State} :
    loaded none s = { s with events := s.events ++ [.diag 18 s.ip] } := rfl

theorem loaded_of_malformed {s : State} {b : List Byte} (h : decodeImage s.heapCap s.vecCap b = none) :
    loaded (some b) s = { s with events := s.events ++ [.diag 19 s.ip] } := by
  simp [loaded, loadOutcome, h, warn, Warning.code]

theorem loaded_of_accepted {s : State} {b : List Byte} {v : VectorHeap}
    (h : decodeImage s.heapCap s.vecCap b = some v) : loaded (some b) s = { s with vh := v } := by
  simp [loaded, loadOutcome, h, warn]

theorem delivered_eq_none {slot : Option (List Byte)} {a : ReadAnswer} (h : a = .fail ∨ slot = none) :
    delivered slot a = none := by
  rcases h with rfl | rfl
  · cases slot <;> rfl
  · rfl

/-- HLOAD is the request, what is done with the delivered bytes, and one byte of instruction. -/
theorem execHload_eq {s : State} {h : HostAnswers}
    (hask : (askRead s).2 = { s with events := s.events ++ [.slotRead], host := h, draws := s.draws + 1 }) :
    execHload s = .next (advance 1 (loaded (delivered s.slot (askRead s).1)
      { s with events := s.events ++ [.slotRead], host := h, draws := s.draws + 1 })) := by
  rw [execHload, hask]

/-- Settles O42: nothing is delivered, or the delivered bytes are malformed, or they are accepted. -/
theorem hloadReplacesHeapOrNothing : Obligations.HloadReplacesHeapOrNothing := by
  refine ⟨fun s => ?_, rfl⟩
  obtain ⟨h, hask, hready, hnone⟩ := askRead_spec s
  refine ⟨(askRead s).1, h, hready, hnone, ?_⟩
  have hexec : exec .hload s = _ := execHload_eq hask
  rw [hexec]
  by_cases hfail : (askRead s).1 = .fail ∨ s.slot = none
  · rw [delivered_eq_none hfail, loaded_of_failure]
    exact .inl ⟨hfail, by simp [advance]⟩
  obtain ⟨ha, hslot⟩ := not_or.1 hfail
  obtain ⟨b, hb⟩ := Option.ne_none_iff_exists'.1 hslot
  have hdeliver : (askRead s).1 = .deliver := by
    cases hc : (askRead s).1
    · rfl
    · exact absurd hc ha
  rw [hdeliver, hb, delivered]
  refine .inr ?_
  cases hv : decodeImage s.heapCap s.vecCap b with
  | none =>
    rw [loaded_of_malformed (by exact hv)]
    exact .inl ⟨b, rfl, rfl, hv, by simp [advance]⟩
  | some v =>
    rw [loaded_of_accepted (by exact hv)]
    exact .inr ⟨b, v, rfl, rfl, hv, rfl⟩

end Sys2Proof.Machine

/-! PROOFS. The codec of the image (45_persist.md R200 to R204, R207), in both directions. -/

namespace Sys2Proof.Machine

/-! ### The checks of the decoder (45_persist.md R204) -/

/-- The bytes pass the four checks of R204: the length, the two counts, the live descriptors. -/
structure ImageAccepted (heapCap vecCap : Nat) (b : List Byte) : Prop where
  length : b.length = 8 + 8 * heapCap + 8 * vecCap
  hp : 0 ≤ (leI32 (b.take 4)).toInt ∧ (leI32 (b.take 4)).toInt ≤ heapCap
  vc : 0 ≤ (leI32 ((b.drop 4).take 4)).toInt ∧ (leI32 ((b.drop 4).take 4)).toInt ≤ vecCap
  live : ((readImage heapCap vecCap b).table.take (readImage heapCap vecCap b).vc).all
    (descriptorOk (readImage heapCap vecCap b).hp) = true

/-- The decoder accepts exactly the bytes that pass the checks, and gives the heap they describe. -/
theorem decodeImage_cases (heapCap vecCap : Nat) (b : List Byte) :
    (ImageAccepted heapCap vecCap b ∧ decodeImage heapCap vecCap b = some (readImage heapCap vecCap b)) ∨
      (¬ ImageAccepted heapCap vecCap b ∧ decodeImage heapCap vecCap b = none) := by
  unfold decodeImage
  split
  · next hlen => exact .inr ⟨fun h => hlen h.length, rfl⟩
  next hlen =>
  split
  · next hhp => exact .inr ⟨fun h => by have := h.hp; omega, rfl⟩
  next hhp =>
  split
  · next hvc => exact .inr ⟨fun h => by have := h.vc; omega, rfl⟩
  next hvc =>
  dsimp only
  split
  · next hlive => exact .inl ⟨⟨not_not.1 hlen, by omega, by omega, hlive⟩, rfl⟩
  · next hlive => exact .inr ⟨fun h => hlive h.live, rfl⟩

theorem decodeImage_eq_none_iff {heapCap vecCap : Nat} {b : List Byte} :
    decodeImage heapCap vecCap b = none ↔ ¬ ImageAccepted heapCap vecCap b := by
  obtain ⟨h, hd⟩ | ⟨h, hd⟩ := decodeImage_cases heapCap vecCap b <;> simp [h, hd]

theorem decodeImage_eq_some_iff {heapCap vecCap : Nat} {b : List Byte} {v : VectorHeap} :
    decodeImage heapCap vecCap b = some v ↔
      ImageAccepted heapCap vecCap b ∧ readImage heapCap vecCap b = v := by
  obtain ⟨h, hd⟩ | ⟨h, hd⟩ := decodeImage_cases heapCap vecCap b <;> simp [h, hd]

/-! ### From a heap to its image and back -/

/-- The image of a heap describes it, with counts that fit in 31 bits. -/
theorem readImage_encodeImage {v : VectorHeap} (hhp : v.hp ≤ 2147483647) (hvc : v.vc ≤ 2147483647) :
    readImage v.cells.length v.table.length (encodeImage v) = v := by
  have htable := groups8_flatMap descriptorLe_length v.table []
  rw [List.append_nil] at htable
  simp only [readImage, take_encodeImage, take_drop_four_encodeImage, drop_eight_encodeImage,
    drop_cells_encodeImage, leI32_i32Le, toInt_ofNat_small hhp, toInt_ofNat_small hvc, Int.toNat_natCast,
    groups8_flatMap f64Le_length, htable, List.map_map]
  simp [Function.comp_def]

/-- Settles O44: the image passes the checks because the heap meets the invariants, and describes the heap. -/
theorem decodeImageInvertsEncodeImage : Obligations.DecodeImageInvertsEncodeImage := by
  intro v hok hcells htable
  simp only [heapOk, Bool.and_eq_true, decide_eq_true_eq] at hok
  obtain ⟨⟨hhp, hvc⟩, hlive⟩ := hok
  have hread := readImage_encodeImage (hhp.trans hcells) (hvc.trans htable)
  refine decodeImage_eq_some_iff.2 ⟨⟨encodeImage_length v, ?_, ?_, hread.symm ▸ hlive⟩, hread⟩
  · rw [take_encodeImage, leI32_i32Le, toInt_ofNat_small (hhp.trans hcells)]
    omega
  · rw [take_drop_four_encodeImage, leI32_i32Le, toInt_ofNat_small (hvc.trans htable)]
    omega

/-! ### From an image to its heap and back -/

/-- A count that is not negative is laid out in the four bytes it was read from. -/
theorem leBytes_toNat_leI32 {b : List Byte} (hlen : b.length = 4) (h : 0 ≤ (leI32 b).toInt) :
    leBytes 4 (leI32 b).toInt.toNat = b := by
  have hcount : BitVec.ofNat 32 (leI32 b).toInt.toNat = leI32 b := by
    rw [← BitVec.ofInt_natCast, Int.toNat_of_nonneg h, BitVec.ofInt_toInt]
  rw [leBytes_four, hcount, i32Le_leI32 hlen]

theorem descriptorLe_leDescriptor {b : List Byte} (h : b.length = 8) : descriptorLe (leDescriptor b) = b := by
  rw [descriptorLe, leDescriptor, i32Le_leI32 (by simp [h]), i32Le_leI32 (by simp [h]), List.take_append_drop]

/-- Eight-byte fields that are read and laid out again are the bytes they were read from. -/
theorem flatMap_map_groups8 {α : Type} {f : α → List Byte} {g : List Byte → α}
    (hfg : ∀ b, b.length = 8 → f (g b) = b) {n : Nat} {b : List Byte} (h : 8 * n ≤ b.length) :
    ((groups8 n b).map g).flatMap f = b.take (8 * n) := by
  rw [List.flatMap_map, ← groups8_flatten n b h, ← List.flatMap_id]
  exact List.flatMap_congr fun x hx => hfg x (groups8_mem_length n b h x hx)

theorem encodeImage_readImage {heapCap vecCap : Nat} {b : List Byte} (h : ImageAccepted heapCap vecCap b) :
    encodeImage (readImage heapCap vecCap b) = b := by
  have hlen := h.length
  have hcells : ((groups8 heapCap (b.drop 8)).map leF64).flatMap f64Le = (b.drop 8).take (8 * heapCap) :=
    flatMap_map_groups8 (fun _ => f64Le_leF64) (by simp; omega)
  have htable : ((groups8 vecCap (b.drop (8 + 8 * heapCap))).map leDescriptor).flatMap descriptorLe =
      b.drop (8 + 8 * heapCap) := by
    rw [flatMap_map_groups8 (fun _ => descriptorLe_leDescriptor) (by simp; omega),
      List.take_of_length_le (by simp; omega)]
  calc encodeImage (readImage heapCap vecCap b)
      = b.take 4 ++ ((b.drop 4).take 4 ++
          ((b.drop 8).take (8 * heapCap) ++ (b.drop 8).drop (8 * heapCap))) := by
        rw [encodeImage, readImage, leBytes_toNat_leI32 (by simp; omega) h.hp.1,
          leBytes_toNat_leI32 (by simp; omega) h.vc.1, hcells, htable, List.drop_drop]
    _ = b.take 4 ++ ((b.drop 4).take 4 ++ (b.drop 4).drop 4) := by rw [List.take_append_drop, List.drop_drop]
    _ = b := by rw [List.take_append_drop, List.take_append_drop]

/-- Settles O45: the heap is the one the bytes describe, so laying it out gives the bytes. -/
theorem acceptedImagesAreFaithful : Obligations.AcceptedImagesAreFaithful := by
  intro heapCap vecCap b v h
  obtain ⟨hok, hcells, htable⟩ := decodeImage_ok h
  obtain ⟨haccepted, rfl⟩ := decodeImage_eq_some_iff.1 h
  exact ⟨hcells, htable, hok, encodeImage_readImage haccepted⟩

/-! ### Malformed images -/

/-- The descriptor at place `i` of an image (45_persist.md R201). -/
def descriptorAt (heapCap : Nat) (b : List Byte) (i : Nat) : Descriptor where
  size := leI32 ((b.drop (8 + 8 * heapCap + 8 * i)).take 4)
  base := leI32 ((b.drop (8 + 8 * heapCap + 8 * i + 4)).take 4)

theorem readImage_table_getElem? {heapCap vecCap : Nat} (b : List Byte) {i : Nat} (h : i < vecCap) :
    (readImage heapCap vecCap b).table[i]? = some (descriptorAt heapCap b i) := by
  rw [readImage, List.getElem?_map, groups8_getElem? _ _ _ h, Option.map_some, leDescriptor, List.drop_drop,
    List.take_take, List.drop_take, List.drop_drop]
  rfl

/-- With legal counts, the live descriptors fail their check when one of them has a size below 1, a base below
0 or an end beyond `hp`. -/
theorem live_rejected_iff {heapCap vecCap : Nat} {b : List Byte} (hhp : 0 ≤ (leI32 (b.take 4)).toInt)
    (hvc : (leI32 ((b.drop 4).take 4)).toInt ≤ vecCap) :
    ¬ ((readImage heapCap vecCap b).table.take (readImage heapCap vecCap b).vc).all
      (descriptorOk (readImage heapCap vecCap b).hp) = true ↔
    ∃ i : Nat, i < (leI32 ((b.drop 4).take 4)).toInt ∧
      ((descriptorAt heapCap b i).size.toInt < 1 ∨ (descriptorAt heapCap b i).base.toInt < 0 ∨
       (leI32 (b.take 4)).toInt <
         (descriptorAt heapCap b i).base.toInt + (descriptorAt heapCap b i).size.toInt) := by
  have hlive (i : Nat) :
      i < (readImage heapCap vecCap b).vc ↔ (i : Int) < (leI32 ((b.drop 4).take 4)).toInt := Int.lt_toNat
  have hhp' : ((readImage heapCap vecCap b).hp : Int) = (leI32 (b.take 4)).toInt := Int.toNat_of_nonneg hhp
  simp only [List.all_eq_true, not_forall, List.mem_iff_getElem?, descriptorOk, decide_eq_true_eq, hhp']
  constructor
  · rintro ⟨d, ⟨i, hi⟩, hbad⟩
    rw [List.getElem?_take, Option.ite_none_right_eq_some, hlive] at hi
    obtain ⟨hivc, hi⟩ := hi
    rw [readImage_table_getElem? b (by omega)] at hi
    cases hi
    exact ⟨i, hivc, by omega⟩
  · rintro ⟨i, hivc, hbad⟩
    refine ⟨descriptorAt heapCap b i, ⟨i, ?_⟩, by omega⟩
    rw [List.getElem?_take_of_lt ((hlive i).2 hivc), readImage_table_getElem? b (by omega)]

/-- Settles O46: a failed check refuses the bytes, and the descriptors are checked with legal counts. -/
theorem malformedImagesAreRejected : Obligations.MalformedImagesAreRejected := by
  intro heapCap vecCap b
  rw [decodeImage_eq_none_iff]
  by_cases hlen : b.length = 8 + 8 * heapCap + 8 * vecCap
  swap; · exact iff_of_true (fun h => hlen h.length) (.inl hlen)
  by_cases hhp : 0 ≤ (leI32 (b.take 4)).toInt ∧ (leI32 (b.take 4)).toInt ≤ heapCap
  swap; · exact iff_of_true (fun h => hhp h.hp) (.inr (.inl hhp))
  by_cases hvc : 0 ≤ (leI32 ((b.drop 4).take 4)).toInt ∧ (leI32 ((b.drop 4).take 4)).toInt ≤ vecCap
  swap; · exact iff_of_true (fun h => hvc h.vc) (.inr (.inr (.inl hvc)))
  have haccepted : ImageAccepted heapCap vecCap b ↔ _ := ⟨ImageAccepted.live, fun h => ⟨hlen, hhp, hvc, h⟩⟩
  rw [haccepted, live_rejected_iff hhp.1 hvc.2]
  simp only [hlen, hhp, hvc, ne_eq, not_true_eq_false, and_self, false_or, descriptorAt]

/-! ### Saving and loading (45_persist.md R207) -/

/-- Settles O47: the slot holds the image, which HLOAD decodes to the saved heap. -/
theorem saveThenLoadRestoresHeap : Obligations.SaveThenLoadRestoresHeap := by
  intro s s' u hinv hok hsave hslot hconfig hdeliver
  have himage : u.slot = some (encodeImage s.vh) := by
    cases hsave
    rw [hslot]
    exact congrArg (slotAfter · (encodeImage s.vh)) hok
  have hdecode : decodeImage u.heapCap u.vecCap (encodeImage s.vh) = some s.vh := by
    rw [show u.heapCap = s.heapCap from congrArg Config.heapCap hconfig,
      show u.vecCap = s.vecCap from congrArg Config.vecCap hconfig]
    exact decodeImageInvertsEncodeImage s.vh hinv.heap hinv.heapCap_le hinv.vecCap_le
  obtain ⟨h, hask, -, -⟩ := askRead_spec u
  have hload : exec .hload u = _ := execHload_eq hask
  rw [himage, hdeliver, delivered, loaded_of_accepted (by exact hdecode)] at hload
  exact ⟨_, hload, rfl, rfl, rfl⟩

end Sys2Proof.Machine

/-! PROOFS. The arithmetic operations (40_arith.md R131): one equation per case of each operation, and the
rounding of their finite results. -/

namespace Sys2Proof.Machine

/-! ### Kinds of operand -/

theorem isFinite_congr {x y : F64} (he : expField x = expField y) : isFinite x = isFinite y := by
  rw [isFinite, he, isFinite]

@[simp] theorem isFinite_fneg (x : F64) : isFinite (fneg x) = isFinite x := isFinite_congr (fneg_fields x).1

/-- Flipping the sign bit negates the value. -/
@[simp] theorem scaled_fneg (x : F64) : scaled (fneg x) = -scaled x := by
  rw [scaled_def, scaled_def, fneg_msb, magnitude_congr (fneg_fields x).1 (fneg_fields x).2]
  cases x.msb <;> simp

theorem isInf_of_isFinite {x : F64} (h : isFinite x = true) : isInf x = false := by
  have := finite_or_inf_or_nan x
  simp_all

theorem isFinite_of_isInf {x : F64} (h : isInf x = true) : isFinite x = false := by
  have := finite_or_inf_or_nan x
  simp_all

theorem isFinite_of_not {x : F64} (hn : isNaN x = false) (hi : isInf x = false) : isFinite x = true := by
  have := finite_or_inf_or_nan x
  simp_all

theorem isFinite_of_fisZero {x : F64} (h : fisZero x = true) : isFinite x = true := ((fisZero_iff x).1 h).1

theorem magnitude_of_fisZero {x : F64} (h : fisZero x = true) : magnitude x = 0 := ((fisZero_iff x).1 h).2

/-- The zero test as the operations write it. -/
theorem finite_and_magnitude_zero (x : F64) : (isFinite x && decide (magnitude x = 0)) = fisZero x := by
  rw [Bool.eq_iff_iff, fisZero_iff, Bool.and_eq_true, decide_eq_true_eq]

@[simp] theorem isNaN_infOf (neg : Bool) : isNaN (infOf neg) = false := by cases neg <;> decide
@[simp] theorem infOf_msb (neg : Bool) : (infOf neg).msb = neg := by cases neg <;> decide
@[simp] theorem isFinite_zeroOf (neg : Bool) : isFinite (zeroOf neg) = true := by cases neg <;> decide
@[simp] theorem zeroOf_msb (neg : Bool) : (zeroOf neg).msb = neg := by cases neg <;> decide
@[simp] theorem scaled_zeroOf (neg : Bool) : scaled (zeroOf neg) = 0 := by cases neg <;> decide

/-- Two infinities of one sign are the same. -/
theorem inf_eq_of_msb_eq {x y : F64} (hx : isInf x = true) (hy : isInf y = true) (h : x.msb = y.msb) :
    x = y := by
  rw [(isInf_iff x).1 hx, (isInf_iff y).1 hy, h]

/-! ### Addition, case by case -/

theorem fadd_of_isNaN (nan : F64) {a b : F64} (h : isNaN a = true ∨ isNaN b = true) : fadd nan a b = nan := by
  rw [fadd, if_pos (by simpa using h)]

theorem fadd_opposite_infs (nan : F64) {a b : F64} (ha : isInf a = true) (hb : isInf b = true)
    (hne : a.msb ≠ b.msb) : fadd nan a b = nan := by
  simp [fadd, isNaN_of_isInf ha, isNaN_of_isInf hb, ha, hb, hne]

theorem fadd_inf_left (nan : F64) {a b : F64} (ha : isInf a = true) (hb : isNaN b = false)
    (hs : isInf b = true → b.msb = a.msb) : fadd nan a b = a := by
  have hvalid : ¬ (isInf b && (a.msb != b.msb)) = true := by
    simp only [Bool.and_eq_true, bne_iff_ne, not_and, not_not]
    exact fun h => (hs h).symm
  simp [fadd, isNaN_of_isInf ha, hb, ha, hvalid]

theorem fadd_inf_right (nan : F64) {a b : F64} (ha : isFinite a = true) (hb : isInf b = true) :
    fadd nan a b = b := by
  simp [fadd, isNaN_of_isFinite ha, isNaN_of_isInf hb, isInf_of_isFinite ha, hb]

theorem fadd_finite (nan : F64) {a b : F64} (ha : isFinite a = true) (hb : isFinite b = true) :
    fadd nan a b = if scaled a + scaled b = 0 then zeroOf (a.msb && b.msb)
      else roundPack (decide (scaled a + scaled b < 0)) (scaled a + scaled b).natAbs 1 := by
  simp [fadd, isNaN_of_isFinite ha, isNaN_of_isFinite hb, isInf_of_isFinite ha, isInf_of_isFinite hb]

/-! ### Multiplication, case by case -/

theorem fmul_comm (nan a b : F64) : fmul nan a b = fmul nan b a := by
  simp only [fmul, bne_comm (a := a.msb), Bool.or_comm (isNaN a), Bool.or_comm (isInf a),
    Bool.or_comm (isFinite a && _), Nat.mul_comm (magnitude a)]

theorem fmul_of_isNaN (nan : F64) {a b : F64} (h : isNaN a = true ∨ isNaN b = true) : fmul nan a b = nan := by
  rw [fmul, if_pos (by simpa using h)]

theorem fmul_inf (nan : F64) {a b : F64} (ha : isInf a = true) (hb : isNaN b = false) :
    fmul nan a b = if fisZero b then nan else infOf (a.msb != b.msb) := by
  simp [fmul, isNaN_of_isInf ha, hb, ha, isFinite_of_isInf ha, ← finite_and_magnitude_zero b]

theorem fmul_finite (nan : F64) {a b : F64} (ha : isFinite a = true) (hb : isFinite b = true) :
    fmul nan a b = roundPack (a.msb != b.msb) (magnitude a * magnitude b) unit := by
  simp [fmul, isNaN_of_isFinite ha, isNaN_of_isFinite hb, isInf_of_isFinite ha, isInf_of_isFinite hb]

/-! ### Division, case by case -/

theorem fdiv_of_isNaN (nan : F64) {a b : F64} (h : isNaN a = true ∨ isNaN b = true) : fdiv nan a b = nan := by
  rw [fdiv, if_pos (by simpa using h)]

theorem fdiv_infs (nan : F64) {a b : F64} (ha : isInf a = true) (hb : isInf b = true) :
    fdiv nan a b = nan := by
  simp [fdiv, isNaN_of_isInf ha, isNaN_of_isInf hb, ha, hb]

theorem fdiv_inf_finite (nan : F64) {a b : F64} (ha : isInf a = true) (hb : isFinite b = true) :
    fdiv nan a b = infOf (a.msb != b.msb) := by
  simp [fdiv, isNaN_of_isInf ha, isNaN_of_isFinite hb, ha, isInf_of_isFinite hb]

theorem fdiv_finite_inf (nan : F64) {a b : F64} (ha : isFinite a = true) (hb : isInf b = true) :
    fdiv nan a b = zeroOf (a.msb != b.msb) := by
  simp [fdiv, isNaN_of_isFinite ha, isNaN_of_isInf hb, isInf_of_isFinite ha, hb]

theorem fdiv_by_zero (nan : F64) {a b : F64} (ha : isFinite a = true) (hb : fisZero b = true) :
    fdiv nan a b = if fisZero a then nan else infOf (a.msb != b.msb) := by
  have hfb := isFinite_of_fisZero hb
  simp [fdiv, isNaN_of_isFinite ha, isNaN_of_isFinite hfb, isInf_of_isFinite ha, isInf_of_isFinite hfb,
    magnitude_of_fisZero hb, ← finite_and_magnitude_zero a, ha]

theorem fdiv_finite (nan : F64) {a b : F64} (ha : isFinite a = true) (hb : isFinite b = true)
    (hz : fisZero b = false) :
    fdiv nan a b = roundPack (a.msb != b.msb) (magnitude a * unit) (magnitude b) := by
  rw [← finite_and_magnitude_zero b, hb, Bool.true_and, decide_eq_false_iff_not] at hz
  simp [fdiv, isNaN_of_isFinite ha, isNaN_of_isFinite hb, isInf_of_isFinite ha, isInf_of_isFinite hb, hz]

/-! ### Rounding (40_arith.md R131) -/

/-- `r` is `V / q` units of 2^-1074 rounded once: no NaN, an infinity exactly from half an ulp above the
largest finite value on, otherwise nearest, and even where another value is as near. -/
structure Rounds (r : F64) (V : Int) (q : Nat) : Prop where
  not_nan : isNaN r = false
  isInf_iff : isInf r = true ↔ 0x3FFFFFFFFFFFFF * 2 ^ (970 + 1074) * (q : Int) ≤ |V|
  nearest : isFinite r = true → ∀ x : F64, |scaled r * q - V| ≤ |scaled x * q - V| ∧
    (scaled x ≠ scaled r → |scaled r * q - V| = |scaled x * q - V| → r.toNat % 2 = 0)

theorem rounds_roundPack {neg : Bool} {p q : Nat} {V : Int} (hq : 0 < q) (hpq : p < q * 2 ^ 2 ^ 12)
    (hV : V = if neg then -(p : Int) else p) : Rounds (roundPack neg p q) V q where
  not_nan := roundPack_not_nan neg p q
  isInf_iff := by
    have habs : |V| = (p : Int) := by rw [hV]; cases neg <;> simp
    rw [roundPack_isInf hq hpq, habs, ← Nat.cast_le (α := Int), Nat.cast_mul, Nat.cast_mul, Nat.cast_pow,
      Nat.cast_ofNat, Nat.cast_ofNat]
  nearest := fun hf x => roundPack_signed hq hpq hf x V hV

/-- A sum of finite values, as a rounded result. -/
theorem rounds_fadd (nan : F64) {a b : F64} (ha : isFinite a = true) (hb : isFinite b = true) :
    Rounds (fadd nan a b) (scaled a + scaled b) 1 := by
  rw [fadd_finite nan ha hb]
  split
  · next hz =>
    rw [hz]
    refine ⟨isNaN_of_isFinite (isFinite_zeroOf _), iff_of_false ?_ ?_, fun _ x => ?_⟩
    · rw [isInf_of_isFinite (isFinite_zeroOf _)]
      exact Bool.false_ne_true
    · rw [abs_zero, not_le]
      positivity
    · simp only [scaled_zeroOf, sub_zero, abs_zero, Nat.cast_one, mul_one]
      exact ⟨abs_nonneg _, fun hne h => absurd (abs_eq_zero.1 h.symm) hne⟩
  · refine rounds_roundPack one_pos ?_ ?_
    · have hma := magnitude_lt ha (le_refl 2098)
      have hmb := magnitude_lt hb (le_refl 2098)
      rw [one_mul]
      calc (scaled a + scaled b).natAbs
          ≤ magnitude a + magnitude b := by
            rw [← natAbs_scaled a, ← natAbs_scaled b]
            exact Int.natAbs_add_le _ _
        _ < 2 ^ 2098 + 2 ^ 2098 := Nat.add_lt_add hma hmb
        _ = 2 ^ (2098 + 1) := by rw [← mul_two, ← pow_succ]
        _ ≤ 2 ^ 2 ^ 12 := Nat.pow_le_pow_right two_pos (by norm_num)
    · by_cases hneg : scaled a + scaled b < 0
      · simp only [hneg, decide_true, if_true]
        omega
      · simp only [hneg, decide_false, Bool.false_eq_true, if_false]
        omega

/-- The sign of a product or quotient of signed values. -/
theorem scaled_mul_scaled (a b : F64) : scaled a * scaled b =
    if a.msb != b.msb then -((magnitude a * magnitude b : Nat) : Int)
      else (magnitude a * magnitude b : Nat) := by
  rw [scaled_def, scaled_def]
  cases a.msb <;> cases b.msb <;> simp

theorem unit_cast : (unit : Int) = 2 ^ 1074 := by rw [unit_eq, Nat.cast_pow, Nat.cast_ofNat]

theorem unit_pos : 0 < unit := by rw [unit_eq]; exact Nat.two_pow_pos 1074

theorem rounds_fmul (nan : F64) {a b : F64} (ha : isFinite a = true) (hb : isFinite b = true) :
    Rounds (fmul nan a b) (scaled a * scaled b) unit := by
  rw [fmul_finite nan ha hb]
  refine rounds_roundPack unit_pos ?_ (scaled_mul_scaled a b)
  have hma := magnitude_lt ha (le_refl 2098)
  have hmb := magnitude_lt hb (le_refl 2098)
  calc magnitude a * magnitude b
      < 2 ^ 2098 * 2 ^ 2098 := Nat.mul_lt_mul'' hma hmb
    _ = 2 ^ (2098 + 2098) := (pow_add _ _ _).symm
    _ ≤ 2 ^ (1074 + 2 ^ 12) := Nat.pow_le_pow_right two_pos (by norm_num)
    _ = unit * 2 ^ 2 ^ 12 := by rw [unit_eq, pow_add]

/-- The quotient's numerator carries both signs, so that the denominator is a magnitude. -/
theorem rounds_fdiv (nan : F64) {a b : F64} (ha : isFinite a = true) (hb : isFinite b = true)
    (hz : fisZero b = false) :
    Rounds (fdiv nan a b) (if b.msb then -(scaled a * unit) else scaled a * unit) (magnitude b) := by
  have hpos : 0 < magnitude b := by
    rw [← finite_and_magnitude_zero b, hb, Bool.true_and, decide_eq_false_iff_not] at hz
    exact Nat.pos_of_ne_zero hz
  rw [fdiv_finite nan ha hb hz]
  refine rounds_roundPack hpos ?_ ?_
  · have hma := magnitude_lt ha (le_refl 2098)
    calc magnitude a * unit
        < 2 ^ 2098 * unit := Nat.mul_lt_mul_of_pos_right hma unit_pos
      _ = 2 ^ (2098 + 1074) := by rw [unit_eq, pow_add]
      _ ≤ 2 ^ 2 ^ 12 := Nat.pow_le_pow_right two_pos (by norm_num)
      _ ≤ magnitude b * 2 ^ 2 ^ 12 := Nat.le_mul_of_pos_left _ hpos
  · rw [scaled_def a]
    cases a.msb <;> cases b.msb <;> simp

/-- Settles O48, from the rounding of a sum and the fields of a flipped sign. -/
theorem faddFsubAreCorrectlyRounded : Obligations.FaddFsubAreCorrectlyRounded := by
  refine ⟨fun nan a b ha hb => ?_, fun b => ⟨fneg_msb b, (fneg_fields b).1, (fneg_fields b).2, fun hb =>
    ⟨(isFinite_fneg b).trans hb, scaled_fneg b⟩⟩, fun _ _ _ => rfl⟩
  obtain ⟨hnan, hinf, hnear⟩ := rounds_fadd nan ha hb
  simp only [Nat.cast_one, mul_one] at hinf hnear
  refine ⟨hnan, hinf, fun h => ?_, fun hf x _ => hnear hf x⟩
  rw [(isInf_iff _).1 h]
  congr 1
  rw [fadd_finite nan ha hb] at h ⊢
  split at h
  · rw [isInf_of_isFinite (isFinite_zeroOf _)] at h
    cases h
  · rw [if_neg ‹_›, roundPack_msb]

end Sys2Proof.Machine

/-! PROOFS. What the arithmetic operations give (40_arith.md R131, R134): rounding, NaNs, signed zeros and
infinities; and the instructions ADD, SUB, MUL and DIV (R136 to R139). -/

namespace Sys2Proof.Machine

/-! ### Products and quotients are correctly rounded -/

/-- Settles O49, from the rounding of a product in units of 2^-2148. -/
theorem fmulIsCorrectlyRounded : Obligations.FmulIsCorrectlyRounded := by
  intro nan a b ha hb
  obtain ⟨hnan, hinf, hnear⟩ := rounds_fmul nan ha hb
  rw [unit_cast] at hinf hnear
  exact ⟨hnan, by rw [fmul_finite nan ha hb, roundPack_msb], hinf, fun hf x _ => hnear hf x⟩

/-- A distance multiplied by the divisor, with the divisor's sign moved to the dividend. -/
theorem distance_mul_scaled (b : F64) (y n : Int) :
    |y * scaled b - n| = |y * magnitude b - if b.msb then -n else n| := by
  rw [scaled_def]
  cases b.msb
  · simp
  · simp only [if_true]
    rw [← abs_neg]
    congr 1
    ring

/-- Settles O50, from the rounding of a quotient by the magnitude of the divisor. -/
theorem fdivIsCorrectlyRounded : Obligations.FdivIsCorrectlyRounded := by
  intro nan a b ha hb hz
  obtain ⟨hnan, hinf, hnear⟩ := rounds_fdiv nan ha hb hz
  have habs : |if b.msb then -(scaled a * (unit : Int)) else scaled a * unit| = |scaled a| * unit := by
    split <;> simp [abs_mul]
  rw [habs, ← abs_scaled b, unit_cast] at hinf
  simp only [← distance_mul_scaled] at hnear
  rw [unit_cast] at hnear
  exact ⟨hnan, by rw [fdiv_finite nan ha hb hz, roundPack_msb], hinf, fun hf x _ => hnear hf x⟩

/-! ### NaNs (40_arith.md R134) -/

/-- The NaN that is drawn has the quiet bit. -/
theorem isQuietNaN_quietNaN (d : BitVec 52) : isQuietNaN (quietNaN d) = true := by
  have hbit : (quietNaN d).getLsbD 51 = true := by
    rw [BitVec.getLsbD, Nat.testBit_eq_decide_div_mod_eq, quietNaN_toNat, decide_eq_true_eq]
    omega
  rw [isQuietNaN, isNaN_quietNaN, hbit, Bool.and_self]

/-- `r` is the NaN handed to an operation exactly when the operation is invalid, and else is no NaN. -/
def NaNOnlyIf (invalid : Prop) (nan r : F64) : Prop := (invalid ∧ r = nan) ∨ (¬ invalid ∧ isNaN r = false)

theorem NaNOnlyIf.eq_nan {invalid : Prop} {nan r : F64} (h : NaNOnlyIf invalid nan r) (hr : isNaN r = true) :
    r = nan := by
  obtain ⟨-, he⟩ | ⟨-, hn⟩ := h
  · exact he
  · rw [hn] at hr
    cases hr

theorem NaNOnlyIf.isNaN_iff {invalid : Prop} {nan r : F64} (h : NaNOnlyIf invalid nan r)
    (hnan : isNaN nan = true) : isNaN r = true ↔ invalid := by
  obtain ⟨hi, rfl⟩ | ⟨hi, hn⟩ := h
  · exact iff_of_true hnan hi
  · exact iff_of_false (Bool.eq_false_iff.1 hn) hi

theorem NaNOnlyIf.of_iff {p q : Prop} {nan r : F64} (h : NaNOnlyIf p nan r) (hpq : q ↔ p) :
    NaNOnlyIf q nan r := by
  rwa [NaNOnlyIf, hpq]

theorem nanOnlyIf_of_invalid {invalid : Prop} {nan r : F64} (hi : invalid) (hr : r = nan) :
    NaNOnlyIf invalid nan r := .inl ⟨hi, hr⟩

theorem nanOnlyIf_of_valid {invalid : Prop} {nan r : F64} (hr : isNaN r = false) (hi : ¬ invalid) :
    NaNOnlyIf invalid nan r := .inr ⟨hi, hr⟩

/-- A NaN that comes of one condition alone. -/
theorem nanOnlyIf_ite {c : Bool} {nan x : F64} (hx : isNaN x = false) :
    NaNOnlyIf (c = true) nan (if c then nan else x) := by
  cases c
  · exact nanOnlyIf_of_valid hx Bool.false_ne_true
  · exact nanOnlyIf_of_invalid rfl rfl

/-- An operand is a NaN, an infinity, which is no zero, or finite. -/
theorem operand_cases (x : F64) : isNaN x = true ∨
    (isNaN x = false ∧ isInf x = true ∧ fisZero x = false) ∨
    (isNaN x = false ∧ isInf x = false ∧ isFinite x = true) := by
  have hz := @isFinite_of_fisZero x
  rcases finite_or_inf_or_nan x with h | h | h <;> simp_all

theorem nanOnlyIf_fadd (nan a b : F64) : NaNOnlyIf
    (isNaN a = true ∨ isNaN b = true ∨ (isInf a = true ∧ isInf b = true ∧ a.msb ≠ b.msb))
    nan (fadd nan a b) := by
  obtain ha | hna := operand_cases a
  · exact nanOnlyIf_of_invalid (.inl ha) (fadd_of_isNaN nan (.inl ha))
  obtain hb | hnb := operand_cases b
  · exact nanOnlyIf_of_invalid (.inr (.inl hb)) (fadd_of_isNaN nan (.inr hb))
  obtain ⟨ha, hia, -⟩ | ⟨ha, hia, hfa⟩ := hna <;> obtain ⟨hb, hib, -⟩ | ⟨hb, hib, hfb⟩ := hnb
  · by_cases hs : a.msb = b.msb
    · exact nanOnlyIf_of_valid (by rw [fadd_inf_left nan hia hb fun _ => hs.symm, ha]) (by simp [ha, hb, hs])
    · exact nanOnlyIf_of_invalid (.inr (.inr ⟨hia, hib, hs⟩)) (fadd_opposite_infs nan hia hib hs)
  · exact nanOnlyIf_of_valid (by rw [fadd_inf_left nan hia hb (by simp [hib]), ha]) (by simp [ha, hb, hib])
  · exact nanOnlyIf_of_valid (by rw [fadd_inf_right nan hfa hib, hb]) (by simp [ha, hb, hia])
  · exact nanOnlyIf_of_valid (rounds_fadd nan hfa hfb).not_nan (by simp [ha, hb, hia])

theorem nanOnlyIf_fmul (nan a b : F64) : NaNOnlyIf
    (isNaN a = true ∨ isNaN b = true ∨
      (isInf a = true ∧ fisZero b = true) ∨ (fisZero a = true ∧ isInf b = true))
    nan (fmul nan a b) := by
  obtain ha | hna := operand_cases a
  · exact nanOnlyIf_of_invalid (.inl ha) (fmul_of_isNaN nan (.inl ha))
  obtain hb | hnb := operand_cases b
  · exact nanOnlyIf_of_invalid (.inr (.inl hb)) (fmul_of_isNaN nan (.inr hb))
  obtain ⟨ha, hia, hza⟩ | ⟨ha, hia, hfa⟩ := hna <;> obtain ⟨hb, hib, hzb⟩ | ⟨hb, hib, hfb⟩ := hnb
  · rw [fmul_inf nan hia hb]
    exact (nanOnlyIf_ite (isNaN_infOf _)).of_iff (by simp [ha, hb, hia, hza])
  · rw [fmul_inf nan hia hb]
    exact (nanOnlyIf_ite (isNaN_infOf _)).of_iff (by simp [ha, hb, hia, hza])
  · rw [fmul_comm, fmul_inf nan hib ha]
    exact (nanOnlyIf_ite (isNaN_infOf _)).of_iff (by simp [ha, hb, hia, hib])
  · exact nanOnlyIf_of_valid (rounds_fmul nan hfa hfb).not_nan (by simp [ha, hb, hia, hib])

theorem nanOnlyIf_fdiv (nan a b : F64) : NaNOnlyIf
    (isNaN a = true ∨ isNaN b = true ∨
      (isInf a = true ∧ isInf b = true) ∨ (fisZero a = true ∧ fisZero b = true))
    nan (fdiv nan a b) := by
  obtain ha | hna := operand_cases a
  · exact nanOnlyIf_of_invalid (.inl ha) (fdiv_of_isNaN nan (.inl ha))
  obtain hb | hnb := operand_cases b
  · exact nanOnlyIf_of_invalid (.inr (.inl hb)) (fdiv_of_isNaN nan (.inr hb))
  obtain ⟨ha, hia, hza⟩ | ⟨ha, hia, hfa⟩ := hna <;> obtain ⟨hb, hib, hzb⟩ | ⟨hb, hib, hfb⟩ := hnb
  · exact nanOnlyIf_of_invalid (.inr (.inr (.inl ⟨hia, hib⟩))) (fdiv_infs nan hia hib)
  · rw [fdiv_inf_finite nan hia hfb]
    exact nanOnlyIf_of_valid (isNaN_infOf _) (by simp [ha, hb, hib, hza])
  · rw [fdiv_finite_inf nan hfa hib]
    exact nanOnlyIf_of_valid (isNaN_of_isFinite (isFinite_zeroOf _)) (by simp [ha, hb, hia, hzb])
  · cases hzb : fisZero b with
    | true =>
      rw [fdiv_by_zero nan hfa hzb]
      exact (nanOnlyIf_ite (isNaN_infOf _)).of_iff (by simp [ha, hb, hia])
    | false => exact nanOnlyIf_of_valid (rounds_fdiv nan hfa hfb hzb).not_nan (by simp [ha, hb, hia])

/-- Settles O51: an operation gives a NaN only by returning the one it is handed, exactly where it is
invalid. -/
theorem nanExactlyOnInvalidOperation : Obligations.NanExactlyOnInvalidOperation := by
  refine ⟨fun s => isQuietNaN_quietNaN _, fun nan a b => ⟨(nanOnlyIf_fadd nan a b).eq_nan,
    (nanOnlyIf_fadd nan a (fneg b)).eq_nan, (nanOnlyIf_fmul nan a b).eq_nan,
    (nanOnlyIf_fdiv nan a b).eq_nan⟩, fun nan a b hnan => ⟨(nanOnlyIf_fadd nan a b).isNaN_iff hnan, ?_,
    (nanOnlyIf_fmul nan a b).isNaN_iff hnan, (nanOnlyIf_fdiv nan a b).isNaN_iff hnan⟩⟩
  have h := (nanOnlyIf_fadd nan a (fneg b)).isNaN_iff hnan
  have hsign : a.msb ≠ !b.msb ↔ a.msb = b.msb := by cases a.msb <;> cases b.msb <;> decide
  rwa [isNaN_fneg, isInf_fneg, fneg_msb, hsign] at h

/-! ### Signed zeros and infinities (40_arith.md R131) -/

/-- The sign of a product that is no NaN. -/
theorem fmul_msb {nan a b : F64} (hnan : isNaN nan = true) (h : isNaN (fmul nan a b) = false) :
    (fmul nan a b).msb = (a.msb != b.msb) := by
  have hne : fmul nan a b ≠ nan := fun he => by rw [he, hnan] at h; cases h
  obtain ha | hna := operand_cases a
  · exact absurd (fmul_of_isNaN nan (.inl ha)) hne
  obtain hb | hnb := operand_cases b
  · exact absurd (fmul_of_isNaN nan (.inr hb)) hne
  obtain ⟨ha, hia, -⟩ | ⟨ha, -, hfa⟩ := hna <;> obtain ⟨hb, hib, -⟩ | ⟨hb, -, hfb⟩ := hnb
  · rw [fmul_inf nan hia hb, ite_ne_left_iff] at hne
    rw [fmul_inf nan hia hb, if_neg hne.1, infOf_msb]
  · rw [fmul_inf nan hia hb, ite_ne_left_iff] at hne
    rw [fmul_inf nan hia hb, if_neg hne.1, infOf_msb]
  · rw [fmul_comm, fmul_inf nan hib ha, ite_ne_left_iff] at hne
    rw [fmul_comm, fmul_inf nan hib ha, if_neg hne.1, infOf_msb, bne_comm]
  · rw [fmul_finite nan hfa hfb, roundPack_msb]

/-- The sign of a quotient that is no NaN. -/
theorem fdiv_msb {nan a b : F64} (hnan : isNaN nan = true) (h : isNaN (fdiv nan a b) = false) :
    (fdiv nan a b).msb = (a.msb != b.msb) := by
  have hne : fdiv nan a b ≠ nan := fun he => by rw [he, hnan] at h; cases h
  obtain ha | hna := operand_cases a
  · exact absurd (fdiv_of_isNaN nan (.inl ha)) hne
  obtain hb | hnb := operand_cases b
  · exact absurd (fdiv_of_isNaN nan (.inr hb)) hne
  obtain ⟨ha, hia, -⟩ | ⟨ha, -, hfa⟩ := hna <;> obtain ⟨hb, hib, -⟩ | ⟨hb, -, hfb⟩ := hnb
  · exact absurd (fdiv_infs nan hia hib) hne
  · rw [fdiv_inf_finite nan hia hfb, infOf_msb]
  · rw [fdiv_finite_inf nan hfa hib, zeroOf_msb]
  · cases hz : fisZero b with
    | false => rw [fdiv_finite nan hfa hfb hz, roundPack_msb]
    | true =>
      rw [fdiv_by_zero nan hfa hz, ite_ne_left_iff] at hne
      rw [fdiv_by_zero nan hfa hz, if_neg hne.1, infOf_msb]

theorem fadd_zeros (nan : F64) {a b : F64} (ha : fisZero a = true) (hb : fisZero b = true) :
    fadd nan a b = zeroOf (a.msb && b.msb) := by
  have hsa := (scaled_eq_zero_iff a).2 (magnitude_of_fisZero ha)
  have hsb := (scaled_eq_zero_iff b).2 (magnitude_of_fisZero hb)
  rw [fadd_finite nan (isFinite_of_fisZero ha) (isFinite_of_fisZero hb), hsa, hsb, if_pos (add_zero 0)]

theorem fsub_self (nan : F64) {a : F64} (ha : isFinite a = true) : fsub nan a a = posZero := by
  rw [fsub, fadd_finite nan ha ((isFinite_fneg a).trans ha), scaled_fneg, if_pos (add_neg_cancel _), fneg_msb,
    Bool.and_not_self]
  rfl

/-- An infinity is the sum also when it stands on the right. -/
theorem fadd_inf (nan : F64) {a b : F64} (ha : isInf a = true) (hb : isNaN b = false)
    (hs : isInf b = true → b.msb = a.msb) : fadd nan b a = a := by
  cases hib : isInf b with
  | true =>
    rw [fadd_inf_left nan hib (isNaN_of_isInf ha) fun _ => (hs hib).symm]
    exact inf_eq_of_msb_eq hib ha (hs hib)
  | false => exact fadd_inf_right nan (isFinite_of_not hb hib) ha

/-- Settles O52, case by case of each operation. -/
theorem signedZerosAndInfinities : Obligations.SignedZerosAndInfinities := by
  refine fun nan a b => ⟨fsub_self nan, fadd_zeros nan, fmul_msb, fdiv_msb, fun ha hb hz => ?_,
    fdiv_finite_inf nan, fdiv_inf_finite nan,
    fun ha hb hs => ⟨fadd_inf_left nan ha hb hs, fadd_inf nan ha hb hs⟩⟩
  rw [fmul_comm nan b a, fmul_inf nan ha hb, hz]
  exact ⟨rfl, rfl⟩

/-! ### ADD, SUB, MUL and DIV (40_arith.md R136 to R139) -/

theorem computed_completes {s : State} {op : F64 → F64 → F64 → F64} {a b : F64} {rest : List F64}
    (h : s.stack = b :: a :: rest) (hc : s.stack.length ≤ s.stackCap) :
    settle s (computed op s) = .next { s with
      stack := op (nanDraw s) a b :: rest, ip := s.ip + 1, draws := s.draws + 1 } := by
  have hr : rest.length < s.stackCap := by simp [h] at hc; omega
  rw [computed, binary_ok h hr]
  rfl

theorem computed_underflow {s : State} {op : F64 → F64 → F64 → F64} (h : s.stack.length < 2) :
    settle s (computed op s) = .next (raise .stackUnderflow s) := by
  rw [computed, binary_underflow h]
  rfl

/-- Settles O23: the three instructions share the two-operand shape with a computed result. -/
theorem addSubMulReplaceOperands : Obligations.AddSubMulReplaceOperands :=
  ⟨fun _ _ _ _ h hc => ⟨computed_completes h hc, computed_completes h hc, computed_completes h hc⟩,
    fun _ h => ⟨computed_underflow h, computed_underflow h, computed_underflow h⟩, rfl, rfl, rfl⟩

/-- Two pops of fewer than two values underflow, whatever is done with the values (10_state.md R28). -/
theorem pop_pop_underflow {s : State} (h : s.stack.length < 2) {α : Type}
    (f : F64 → F64 → State → Except Stop α) :
    (pop s >>= fun p => pop p.2 >>= fun q => f p.1 q.1 q.2) = .error (.raise .stackUnderflow) := by
  match hs : s.stack with
  | [] => rw [pop_nil hs, error_bind]
  | [b] => rw [pop_cons hs, ok_bind, pop_nil rfl, error_bind]
  | _ :: _ :: _ => simp [hs] at h

theorem pop_pop_ok {s : State} {a b : F64} {rest : List F64} (h : s.stack = b :: a :: rest) {α : Type}
    (f : F64 → F64 → State → Except Stop α) :
    (pop s >>= fun p => pop p.2 >>= fun q => f p.1 q.1 q.2) = f b a { s with stack := rest } := by
  rw [pop_cons h, ok_bind, pop_cons rfl, ok_bind]

/-- What DIV does with its two operands (40_arith.md R139). -/
def divide (s : State) (b a : F64) (u : State) : Except Stop State :=
  if fisZero b then .error (.raise .divisionByZero)
  else do
    let t ← push (fdiv (nanDraw s) a b) u
    return advance 1 (countDraw t)

theorem execDiv_eq (s : State) :
    execDiv s = settle s (pop s >>= fun p => pop p.2 >>= fun q => divide s p.1 q.1 q.2) := rfl

/-- Settles O24: after two pops DIV tests the divisor, then pushes the quotient in the room they left. -/
theorem divDividesOrHalts : Obligations.DivDividesOrHalts := by
  refine ⟨fun s a b rest h hc => ⟨fun hz => ?_, fun hz => ?_⟩, fun s h => ?_, rfl⟩
  · change execDiv s = _
    have hr : rest.length < s.stackCap := by simp [h] at hc; omega
    rw [execDiv_eq, pop_pop_ok h, divide, hz, push_ok _ (by exact hr)]
    rfl
  · change execDiv s = _
    rw [execDiv_eq, pop_pop_ok h, divide, if_pos hz, settle_raise]
  · change execDiv s = _
    rw [execDiv_eq, pop_pop_underflow h, settle_raise]

end Sys2Proof.Machine

/-! PROOFS. The dot product (42_vector.md R164, R165): the engine's symmetry, and DOT on live descriptors,
whose cells the heap invariants keep inside the heap. -/

namespace Sys2Proof.Machine

/-! ### The engine (42_vector.md R165) -/

/-- Settles O33: the two vectors meet only in products, and a product is commutative bit for bit. -/
theorem dotIsCommutative : Obligations.DotIsCommutative := by
  intro nan xs ys
  rw [dotEngine, dotEngine, ← List.zip_swap ys xs, List.foldl_map]
  simp only [Prod.fst_swap, Prod.snd_swap, fmul_comm nan]

/-- The engine on two vectors given by index. -/
theorem dotEngine_map (nan : F64) (f g : Nat → F64) (l : List Nat) :
    dotEngine nan (l.map f) (l.map g) = l.foldl (fun acc j => fadd nan acc (fmul nan (f j) (g j))) 0 := by
  rw [dotEngine, List.zip_map', List.foldl_map]
  rfl

/-! ### The cells of a live descriptor (10_state.md R34, 42_vector.md R160) -/

/-- A handle that denotes an index names a live descriptor, which meets the heap invariant (b). -/
theorem Inv.descriptorOk_of_handle {s : State} (hinv : Inv s) {v : F64} {i : Nat} {d : Descriptor}
    (hi : handleIndex v s.vh.vc = some i) (hd : s.vh.table[i]? = some d) : descriptorOk s.vh.hp d = true := by
  have hlt : i < s.vh.vc := ((handleIndex_eq_some_iff v s.vh.vc i).1 hi).2.2
  have hheap := hinv.heap
  simp only [heapOk, Bool.and_eq_true, List.all_eq_true] at hheap
  exact hheap.2 d (List.mem_of_getElem? (by rw [List.getElem?_take_of_lt hlt, hd]))

/-- A signed 32-bit value that is not negative is its unsigned one. -/
theorem toInt_eq_toNat_of_nonneg {x : I32} (h : 0 ≤ x.toInt) : x.toInt = x.toNat := by
  have := x.isLt
  rw [BitVec.toInt_eq_toNat_cond] at h ⊢
  split at h <;> omega

/-- The cells of a descriptor that ends within the heap, by index. -/
theorem vectorCells_of_descriptorOk {hp : Nat} {d : Descriptor} {cells : List F64}
    (h : descriptorOk hp d = true) (hhp : hp ≤ cells.length) : vectorCells d cells =
      some ((List.range d.size.toNat).map fun j => cells.getD (d.base.toNat + j) 0) := by
  simp only [descriptorOk, decide_eq_true_eq] at h
  obtain ⟨hsize, hbase, hend⟩ := h
  have hsize' : d.size.toInt = d.size.toNat := toInt_eq_toNat_of_nonneg (by omega)
  have hbase' : d.base.toInt = d.base.toNat := toInt_eq_toNat_of_nonneg hbase
  rw [vectorCells, if_pos (by omega), hsize', hbase', Int.toNat_natCast, Int.toNat_natCast, Option.some.injEq]
  apply List.ext_getElem
  · simp
    omega
  · intro j hj hj'
    simp only [List.length_map, List.length_range] at hj'
    simp only [List.getElem_take, List.getElem_drop, List.getElem_map, List.getElem_range]
    rw [List.getD_eq_getElem _ _ (by omega)]

/-! ### DOT (42_vector.md R164) -/

/-- The dot product of two live descriptors of one size. -/
theorem dotOf_live (nan : F64) {hp : Nat} {da db : Descriptor} {cells : List F64}
    (ha : descriptorOk hp da = true) (hb : descriptorOk hp db = true) (hhp : hp ≤ cells.length)
    (hsize : da.size = db.size) : dotOf nan da db cells = .ok ((List.range da.size.toNat).foldl
      (fun acc j => fadd nan acc
        (fmul nan (cells.getD (da.base.toNat + j) 0) (cells.getD (db.base.toNat + j) 0))) 0) := by
  rw [dotOf, if_neg (not_not.2 hsize), vectorCells_of_descriptorOk ha hhp, vectorCells_of_descriptorOk hb hhp,
    ← hsize]
  exact congrArg Except.ok (dotEngine_map nan _ _ _)

/-- What DOT does with its two operands. -/
def dotOperands (s : State) (hb ha : F64) (u : State) : Except Stop State :=
  match handleIndex ha s.vh.vc, handleIndex hb s.vh.vc with
  | some ia, some ib =>
    match s.vh.table[ia]?, s.vh.table[ib]? with
    | some da, some db => do
      let r ← dotOf (nanDraw s) da db s.vh.cells
      let t ← push r u
      return advance 1 (countDraw t)
    | _, _ => .error (.fault .noSuchCell)
  | _, _ => .error (.raise .invalidVectorHandle)

theorem execDot_eq (s : State) :
    execDot s = settle s (pop s >>= fun p => pop p.2 >>= fun q => dotOperands s p.1 q.1 q.2) := rfl

/-- With valid handles DOT is the dot product of their descriptors. -/
theorem dotOperands_valid {s u : State} {ha hb : F64} {ia ib : Nat} {da db : Descriptor}
    (hia : handleIndex ha s.vh.vc = some ia) (hib : handleIndex hb s.vh.vc = some ib)
    (hda : s.vh.table[ia]? = some da) (hdb : s.vh.table[ib]? = some db) :
    dotOperands s hb ha u = do
      let r ← dotOf (nanDraw s) da db s.vh.cells
      let t ← push r u
      return advance 1 (countDraw t) := by
  simp only [dotOperands, hia, hib, hda, hdb]

theorem dotOperands_invalid {s u : State} {ha hb : F64}
    (h : handleIndex ha s.vh.vc = none ∨ handleIndex hb s.vh.vc = none) :
    dotOperands s hb ha u = .error (.raise .invalidVectorHandle) := by
  unfold dotOperands
  split
  · next hia hib =>
    rw [hia, hib] at h
    simp at h
  · rfl

/-- Settles O32: the two pops, the handles, the sizes, and the sum over the cells of live descriptors. -/
theorem dotComputesDotProduct : Obligations.DotComputesDotProduct := by
  refine ⟨fun s ha hb rest ia ib da db hinv hs hia hib hda hdb => ?_, fun s ha hb rest hs h => ?_,
    fun s h => ?_, rfl⟩
  · change (_ → execDot s = _) ∧ (_ → execDot s = _)
    rw [execDot_eq, pop_pop_ok hs, dotOperands_valid hia hib hda hdb]
    refine ⟨fun hsize => ?_, fun hsize => ?_⟩
    · have hroom : rest.length < s.stackCap := by
        have := hinv.stack
        rw [hs, List.length_cons, List.length_cons] at this
        omega
      have hlive := hinv.descriptorOk_of_handle hia hda
      have hlive' := hinv.descriptorOk_of_handle hib hdb
      rw [dotOf_live _ hlive hlive' hinv.hp_le hsize, ok_bind, push_ok _ (by exact hroom)]
      rfl
    · rw [dotOf, if_pos hsize, error_bind, settle_raise]
  · change execDot s = _
    rw [execDot_eq, pop_pop_ok hs, dotOperands_invalid h, settle_raise]
  · change execDot s = _
    rw [execDot_eq, pop_pop_underflow h, settle_raise]

end Sys2Proof.Machine
